-- ==== Sys2Proof/Word.lean ====
section
/-!
DEFINITION. The word types of the core: a word is 32 bits (00_scope.md R8, R12), a register index is a 5-bit
field (30_encoding.md R81), a byte is the unit in which the data memory is written down (log 1).
-/

namespace Sys2Proof

/-- A 32-bit word: register contents, the program counter, instruction words, memory words (R7, R8). -/
abbrev Word := BitVec 32

/-- A general register's 5-bit index (R81). -/
abbrev RegIdx := BitVec 5

/-- One byte of a data-memory word, in the layout of log 1. -/
abbrev Byte := BitVec 8

end Sys2Proof
end

