-- ==== Sys2Proof/Machine/Signals.lean ====
section
/-!
DEFINITION. The closed sets of names the spec uses: ALU operations (41_r_type_alu.md R160), branch comparators
(44_branch.md R210), instruction classes and the record of the execution signal snapshot (40_step_and_decode.md
R141 to R143). Types only; what they compute is in Alu.lean, Flags.lean and Control.lean.
-/

namespace Sys2Proof.Machine

/-- The ten ALU operations of R160. -/
inductive AluOp where
  | add | sub | and | or | xor | sll | srl | sra | slt | sltu
  deriving DecidableEq, Repr

/-- The six comparators of R210. -/
inductive Comparator where
  | eq | ne | lt | ge | ltu | geu
  deriving DecidableEq, Repr

/-- The instruction classes the snapshot knows (R141, R143): `R|I|L|S|B`. -/
inductive InstrClass where
  | r | i | l | s | b
  deriving DecidableEq, Repr

/-- The ALU operation name of the snapshot (R142): an ALU operation, or a class B comparison. -/
inductive AluName where
  | op (o : AluOp)
  | cmp (c : Comparator)
  deriving DecidableEq, Repr

/-- The five control lines of R141. -/
structure ControlLines where
  registerWrite : Bool
  aluSourceIsImmediate : Bool
  memoryRead : Bool
  memoryWrite : Bool
  branchTaken : Bool
  deriving DecidableEq, Repr

/-- The execution signal snapshot (10_state.md R34, R143). -/
structure Signal where
  cls : InstrClass
  lines : ControlLines
  aluName : AluName
  /-- The resolved ALU result (classes R, I) or effective address (L, S); absent for class B (R143). -/
  result : Option Word
  /-- The immediate value used; absent for class R (R143). -/
  imm : Option Word
  deriving DecidableEq, Repr

/-- The treatment of `lui auipc jal jalr`, the parameter UJ_EXEC (R7, 45_upper_and_jump.md R230). -/
inductive UjExec where
  | skip | rv32i
  deriving DecidableEq, Repr

end Sys2Proof.Machine
end

