-- ==== Sys2Proof/Config.lean ====
section
/-!
DEFINITION. What is fixed for the machine (00_scope.md R7) and the free values: constants without a body, so
that no proof can see what they are (93_implementation_defined.md U11, U12; logs 5, 6, 7).
-/

namespace Sys2Proof.Config

open Sys2Proof.Machine

/-- The largest MEM_WORDS the spec allows (R7, D4). -/
def maxMemWords : Nat := 2 ^ 29 - 2 ^ 9

/-- The largest PROG_LEN the spec allows (R7, D5). -/
def maxProgLen : Nat := 2 ^ 29

/-- The default MEM_WORDS (R7, D4). -/
def defaultMemWords : Nat := 64

/-- The default NOP_WORD, `addi x0, x0, 0` (R7, R105, D15; log 17). -/
def defaultNopWord : Word := 0x00000013#32

/-- HALT_WORD, `beq x0, x0, 0` (R7, R102). -/
def haltWord : Word := 0x00000063#32

/-- What a data-memory byte that is not listed reads as: the reset contents, zero (R35). -/
def unlistedByte : Byte := 0#8

/-- The signal snapshot where the spec leaves it open (R144, U11), one free value per draw. Log 5, log 7. -/
opaque freeSignal : Nat → Option Signal

/-- The last-modified register index where the spec leaves it open (U11, D17). Log 5. -/
opaque freeLastReg : Nat → Option RegIdx

/-- The last-modified memory index where the spec leaves it open (U11, D17). Log 5. -/
opaque freeLastMem : Nat → Option Nat

/-- Whether a discarded write to x0 is reported as index 0 or as none (R146, U12, D17). Log 6. -/
opaque freeX0Reported : Nat → Bool

end Sys2Proof.Config
end

