-- ==== Sys2Proof/WellFormed.lean ====
section
/-!
DEFINITION. Which instruction terms a word can carry. Register and immediate fields are bounded by their types;
three things are left to check: a B or J displacement is even (30_encoding.md R91, R93), and `beq x0, x0, 0` is the
HALT sentinel, never a `beq` (R102, 44_branch.md R212).
-/

namespace Sys2Proof

/-- Bit 0 of a B displacement is zero (R86, R91). -/
def evenB (imm : BitVec 13) : Bool := !imm.getLsbD 0

/-- Bit 0 of a J displacement is zero (R88, R93). -/
def evenJ (imm : BitVec 21) : Bool := !imm.getLsbD 0

/-- The operands of the HALT sentinel (R102). -/
def isHaltOperands (rs1 rs2 : RegIdx) (imm : BitVec 13) : Bool := rs1 == 0#5 && rs2 == 0#5 && imm == 0#13

/-- The instruction terms that some word decodes to. -/
def Instr.wellFormed : Instr → Bool
  | .beq rs1 rs2 imm => evenB imm && !isHaltOperands rs1 rs2 imm
  | .bne _ _ imm => evenB imm
  | .blt _ _ imm => evenB imm
  | .bge _ _ imm => evenB imm
  | .bltu _ _ imm => evenB imm
  | .bgeu _ _ imm => evenB imm
  | .jal _ imm => evenJ imm
  | .halt => true
  | .add _ _ _ => true
  | .sub _ _ _ => true
  | .sll _ _ _ => true
  | .slt _ _ _ => true
  | .sltu _ _ _ => true
  | .xor _ _ _ => true
  | .srl _ _ _ => true
  | .sra _ _ _ => true
  | .or _ _ _ => true
  | .and _ _ _ => true
  | .addi _ _ _ => true
  | .slti _ _ _ => true
  | .sltiu _ _ _ => true
  | .xori _ _ _ => true
  | .ori _ _ _ => true
  | .andi _ _ _ => true
  | .slli _ _ _ => true
  | .srli _ _ _ => true
  | .srai _ _ _ => true
  | .lw _ _ _ => true
  | .sw _ _ _ => true
  | .lui _ _ => true
  | .auipc _ _ => true
  | .jalr _ _ _ => true

end Sys2Proof
end

