-- ==== Sys2Proof/Decode.lean ====
section
/-!
DEFINITION. The decoder from a word to an instruction (30_encoding.md R101), its fields and immediates (R81 to
R94), the opcode map as a table of masks and matches (R96 to R100), and the encoder (R82 to R88). The decoder is
total: a word that is no instruction is rejected by the name of the selection that failed (R103, R104).
-/

namespace Sys2Proof

/-! ## Fields (R81) -/

def opcodeOf (w : Word) : BitVec 7 := w.extractLsb' 0 7
def rdOf (w : Word) : RegIdx := w.extractLsb' 7 5
def funct3Of (w : Word) : BitVec 3 := w.extractLsb' 12 3
def rs1Of (w : Word) : RegIdx := w.extractLsb' 15 5
def rs2Of (w : Word) : RegIdx := w.extractLsb' 20 5
def funct7Of (w : Word) : BitVec 7 := w.extractLsb' 25 7

/-! ## Immediate fields, before their extension to 32 bits (R89 to R94) -/

/-- `w[31:20]` (R89). -/
def immIOf (w : Word) : BitVec 12 := w.extractLsb' 20 12

/-- `w[31:25] ‖ w[11:7]` (R90). -/
def immSOf (w : Word) : BitVec 12 := w.extractLsb' 25 7 ++ w.extractLsb' 7 5

/-- `w[31] ‖ w[7] ‖ w[30:25] ‖ w[11:8] ‖ 0b0` (R91). -/
def immBOf (w : Word) : BitVec 13 :=
  w.extractLsb' 31 1 ++ (w.extractLsb' 7 1 ++ (w.extractLsb' 25 6 ++ (w.extractLsb' 8 4 ++ 0#1)))

/-- `w[31:12]` (R92). -/
def imm20Of (w : Word) : BitVec 20 := w.extractLsb' 12 20

/-- `w[31] ‖ w[19:12] ‖ w[20] ‖ w[30:21] ‖ 0b0` (R93). -/
def immJOf (w : Word) : BitVec 21 :=
  w.extractLsb' 31 1 ++ (w.extractLsb' 12 8 ++ (w.extractLsb' 20 1 ++ (w.extractLsb' 21 10 ++ 0#1)))

/-- `w[24:20]` (R94). -/
def shamtOf (w : Word) : BitVec 5 := w.extractLsb' 20 5

/-! ## The decoder (R101) -/

/-- Why a word is UNRECOGNISED (R103). Every reason leads to the same step, `raise UnsupportedOpcode` (R242). -/
inductive DecodeError where
  /-- The major opcode belongs to no instruction (R95). -/
  | majorOpcode
  /-- No class R instruction has this funct7 and funct3 (R96). -/
  | functR
  /-- A shift pattern whose upper seven bits are reserved (R97, R104). -/
  | functShift
  /-- A load other than `lw` (R98). -/
  | functLoad
  /-- A store other than `sw` (R98). -/
  | functStore
  /-- A branch pattern with funct3 010 or 011 (R99). -/
  | functBranch
  /-- A `jalr` pattern with funct3 other than 000 (R100). -/
  | functJalr
  /-- Fewer than four bytes are left (only where a program is read from bytes, R80, log 1). -/
  | truncated
  deriving DecidableEq, Repr

/-- Class R selection (R96). -/
def decodeR (w : Word) : Except DecodeError Instr :=
  if funct7Of w = 0b0000000#7 then
    if funct3Of w = 0b000#3 then .ok (.add (rdOf w) (rs1Of w) (rs2Of w))
    else if funct3Of w = 0b001#3 then .ok (.sll (rdOf w) (rs1Of w) (rs2Of w))
    else if funct3Of w = 0b010#3 then .ok (.slt (rdOf w) (rs1Of w) (rs2Of w))
    else if funct3Of w = 0b011#3 then .ok (.sltu (rdOf w) (rs1Of w) (rs2Of w))
    else if funct3Of w = 0b100#3 then .ok (.xor (rdOf w) (rs1Of w) (rs2Of w))
    else if funct3Of w = 0b101#3 then .ok (.srl (rdOf w) (rs1Of w) (rs2Of w))
    else if funct3Of w = 0b110#3 then .ok (.or (rdOf w) (rs1Of w) (rs2Of w))
    else .ok (.and (rdOf w) (rs1Of w) (rs2Of w))
  else if funct7Of w = 0b0100000#7 then
    if funct3Of w = 0b000#3 then .ok (.sub (rdOf w) (rs1Of w) (rs2Of w))
    else if funct3Of w = 0b101#3 then .ok (.sra (rdOf w) (rs1Of w) (rs2Of w))
    else .error .functR
  else .error .functR

/-- Class I selection (R97, R104). -/
def decodeI (w : Word) : Except DecodeError Instr :=
  if funct3Of w = 0b000#3 then .ok (.addi (rdOf w) (rs1Of w) (immIOf w))
  else if funct3Of w = 0b010#3 then .ok (.slti (rdOf w) (rs1Of w) (immIOf w))
  else if funct3Of w = 0b011#3 then .ok (.sltiu (rdOf w) (rs1Of w) (immIOf w))
  else if funct3Of w = 0b100#3 then .ok (.xori (rdOf w) (rs1Of w) (immIOf w))
  else if funct3Of w = 0b110#3 then .ok (.ori (rdOf w) (rs1Of w) (immIOf w))
  else if funct3Of w = 0b111#3 then .ok (.andi (rdOf w) (rs1Of w) (immIOf w))
  else if funct3Of w = 0b001#3 then
    if funct7Of w = 0b0000000#7 then .ok (.slli (rdOf w) (rs1Of w) (shamtOf w)) else .error .functShift
  else
    if funct7Of w = 0b0000000#7 then .ok (.srli (rdOf w) (rs1Of w) (shamtOf w))
    else if funct7Of w = 0b0100000#7 then .ok (.srai (rdOf w) (rs1Of w) (shamtOf w))
    else .error .functShift

/-- Branch selection (R99), after the HALT word has been tested. -/
def decodeB (w : Word) : Except DecodeError Instr :=
  if funct3Of w = 0b000#3 then .ok (.beq (rs1Of w) (rs2Of w) (immBOf w))
  else if funct3Of w = 0b001#3 then .ok (.bne (rs1Of w) (rs2Of w) (immBOf w))
  else if funct3Of w = 0b100#3 then .ok (.blt (rs1Of w) (rs2Of w) (immBOf w))
  else if funct3Of w = 0b101#3 then .ok (.bge (rs1Of w) (rs2Of w) (immBOf w))
  else if funct3Of w = 0b110#3 then .ok (.bltu (rs1Of w) (rs2Of w) (immBOf w))
  else if funct3Of w = 0b111#3 then .ok (.bgeu (rs1Of w) (rs2Of w) (immBOf w))
  else .error .functBranch

/-- The decoder of R101: the HALT word first, then the row of the opcode map, else a rejection by name. -/
def decode (w : Word) : Except DecodeError Instr :=
  if w = Config.haltWord then .ok .halt
  else if opcodeOf w = 0b0110011#7 then decodeR w
  else if opcodeOf w = 0b0010011#7 then decodeI w
  else if opcodeOf w = 0b0000011#7 then
    if funct3Of w = 0b010#3 then .ok (.lw (rdOf w) (immIOf w) (rs1Of w)) else .error .functLoad
  else if opcodeOf w = 0b0100011#7 then
    if funct3Of w = 0b010#3 then .ok (.sw (rs2Of w) (immSOf w) (rs1Of w)) else .error .functStore
  else if opcodeOf w = 0b1100011#7 then decodeB w
  else if opcodeOf w = 0b0110111#7 then .ok (.lui (rdOf w) (imm20Of w))
  else if opcodeOf w = 0b0010111#7 then .ok (.auipc (rdOf w) (imm20Of w))
  else if opcodeOf w = 0b1101111#7 then .ok (.jal (rdOf w) (immJOf w))
  else if opcodeOf w = 0b1100111#7 then
    if funct3Of w = 0b000#3 then .ok (.jalr (rdOf w) (rs1Of w) (immIOf w)) else .error .functJalr
  else .error .majorOpcode

/-- The instruction the decoder reads from a table word of `nbits` bits. Every row has one 32-bit word (R80). -/
def decodeTableWord (nbits w : Nat) : Option Instr :=
  match decode (BitVec.ofNat 32 (w % 2 ^ nbits)) with
  | .ok i => some i
  | .error _ => none

/-! ## Words as bytes (log 1: only where an environment lays a program out in bytes, R58, D7) -/

/-- A word from its bytes, the least significant byte at the lowest address (D7, log 1). -/
def wordOfBytes (b0 b1 b2 b3 : Byte) : Word := b3 ++ (b2 ++ (b1 ++ b0))

/-- Byte `k` (0 to 3) of a word in that layout. -/
def byteOfWord (w : Word) (k : Nat) : Byte := w.extractLsb' (8 * k) 8

/-- The decoder over bytes: the instruction and the bytes after its word. -/
def decodeBytes : List Byte → Except DecodeError (Instr × List Byte)
  | b0 :: b1 :: b2 :: b3 :: rest =>
    match decode (wordOfBytes b0 b1 b2 b3) with
    | .ok i => .ok (i, rest)
    | .error e => .error e
  | _ => .error .truncated

/-! ## The opcode map as masks and matches (R96 to R102) -/

/-- One row of the opcode map: a word belongs to the row when `w & mask = pattern`. -/
structure OpcodeRow where
  mnemonic : Mnemonic
  mask : Word
  pattern : Word
  deriving DecidableEq, Repr

/-- The row of R102, tested before every other row. -/
def haltRow : OpcodeRow := ⟨.halt, 0xFFFFFFFF#32, 0x00000063#32⟩

/-- The rows of R96. -/
def rowsR : List OpcodeRow :=
  [⟨.add, 0xFE00707F#32, 0x00000033#32⟩, ⟨.sub, 0xFE00707F#32, 0x40000033#32⟩,
   ⟨.sll, 0xFE00707F#32, 0x00001033#32⟩, ⟨.slt, 0xFE00707F#32, 0x00002033#32⟩,
   ⟨.sltu, 0xFE00707F#32, 0x00003033#32⟩, ⟨.xor, 0xFE00707F#32, 0x00004033#32⟩,
   ⟨.srl, 0xFE00707F#32, 0x00005033#32⟩, ⟨.sra, 0xFE00707F#32, 0x40005033#32⟩,
   ⟨.or, 0xFE00707F#32, 0x00006033#32⟩, ⟨.and, 0xFE00707F#32, 0x00007033#32⟩]

/-- The rows of R97. -/
def rowsI : List OpcodeRow :=
  [⟨.addi, 0x0000707F#32, 0x00000013#32⟩, ⟨.slti, 0x0000707F#32, 0x00002013#32⟩,
   ⟨.sltiu, 0x0000707F#32, 0x00003013#32⟩, ⟨.xori, 0x0000707F#32, 0x00004013#32⟩,
   ⟨.ori, 0x0000707F#32, 0x00006013#32⟩, ⟨.andi, 0x0000707F#32, 0x00007013#32⟩,
   ⟨.slli, 0xFE00707F#32, 0x00001013#32⟩, ⟨.srli, 0xFE00707F#32, 0x00005013#32⟩,
   ⟨.srai, 0xFE00707F#32, 0x40005013#32⟩]

/-- The rows of R98. -/
def rowsLS : List OpcodeRow :=
  [⟨.lw, 0x0000707F#32, 0x00002003#32⟩, ⟨.sw, 0x0000707F#32, 0x00002023#32⟩]

/-- The rows of R99. -/
def rowsB : List OpcodeRow :=
  [⟨.beq, 0x0000707F#32, 0x00000063#32⟩, ⟨.bne, 0x0000707F#32, 0x00001063#32⟩,
   ⟨.blt, 0x0000707F#32, 0x00004063#32⟩, ⟨.bge, 0x0000707F#32, 0x00005063#32⟩,
   ⟨.bltu, 0x0000707F#32, 0x00006063#32⟩, ⟨.bgeu, 0x0000707F#32, 0x00007063#32⟩]

/-- The rows of R100. -/
def rowsUJ : List OpcodeRow :=
  [⟨.lui, 0x0000007F#32, 0x00000037#32⟩, ⟨.auipc, 0x0000007F#32, 0x00000017#32⟩,
   ⟨.jal, 0x0000007F#32, 0x0000006F#32⟩, ⟨.jalr, 0x0000707F#32, 0x00000067#32⟩]

/-- The rows of R96 to R100. -/
def opcodeRows : List OpcodeRow := rowsR ++ rowsI ++ rowsLS ++ rowsB ++ rowsUJ

/-- Whether a word belongs to a row. -/
def OpcodeRow.accepts (r : OpcodeRow) (w : Word) : Bool := w &&& r.mask == r.pattern

/-- The row the opcode map gives a word, in the order of R101. -/
def rowOf (w : Word) : Option Mnemonic :=
  ((haltRow :: opcodeRows).find? (·.accepts w)).map (·.mnemonic)

/-! ## The encoder (R82 to R88) -/

/-- R format (R82), and the shift variant of the I format (R84) with `rs2` as the shift amount. -/
def encodeR (funct7 : BitVec 7) (rs2 rs1 : BitVec 5) (funct3 : BitVec 3) (rd : BitVec 5) (opcode : BitVec 7) : Word :=
  funct7 ++ (rs2 ++ (rs1 ++ (funct3 ++ (rd ++ opcode))))

/-- I format (R83). -/
def encodeI (imm : BitVec 12) (rs1 : BitVec 5) (funct3 : BitVec 3) (rd : BitVec 5) (opcode : BitVec 7) : Word :=
  imm ++ (rs1 ++ (funct3 ++ (rd ++ opcode)))

/-- S format (R85). -/
def encodeS (imm : BitVec 12) (rs2 rs1 : BitVec 5) (funct3 : BitVec 3) (opcode : BitVec 7) : Word :=
  imm.extractLsb' 5 7 ++ (rs2 ++ (rs1 ++ (funct3 ++ (imm.extractLsb' 0 5 ++ opcode))))

/-- B format (R86); bit 0 of the displacement is not stored. -/
def encodeB (imm : BitVec 13) (rs2 rs1 : BitVec 5) (funct3 : BitVec 3) (opcode : BitVec 7) : Word :=
  imm.extractLsb' 12 1 ++ (imm.extractLsb' 5 6 ++ (rs2 ++ (rs1 ++ (funct3 ++
    (imm.extractLsb' 1 4 ++ (imm.extractLsb' 11 1 ++ opcode))))))

/-- U format (R87). -/
def encodeU (imm20 : BitVec 20) (rd : BitVec 5) (opcode : BitVec 7) : Word := imm20 ++ (rd ++ opcode)

/-- J format (R88); bit 0 of the displacement is not stored. -/
def encodeJ (imm : BitVec 21) (rd : BitVec 5) (opcode : BitVec 7) : Word :=
  imm.extractLsb' 20 1 ++ (imm.extractLsb' 1 10 ++ (imm.extractLsb' 11 1 ++ (imm.extractLsb' 12 8 ++ (rd ++ opcode))))

/-- The word of an instruction. -/
def encode : Instr → Word
  | .halt => encodeB 0#13 0#5 0#5 0b000#3 0b1100011#7
  | .add rd rs1 rs2 => encodeR 0b0000000#7 rs2 rs1 0b000#3 rd 0b0110011#7
  | .sub rd rs1 rs2 => encodeR 0b0100000#7 rs2 rs1 0b000#3 rd 0b0110011#7
  | .sll rd rs1 rs2 => encodeR 0b0000000#7 rs2 rs1 0b001#3 rd 0b0110011#7
  | .slt rd rs1 rs2 => encodeR 0b0000000#7 rs2 rs1 0b010#3 rd 0b0110011#7
  | .sltu rd rs1 rs2 => encodeR 0b0000000#7 rs2 rs1 0b011#3 rd 0b0110011#7
  | .xor rd rs1 rs2 => encodeR 0b0000000#7 rs2 rs1 0b100#3 rd 0b0110011#7
  | .srl rd rs1 rs2 => encodeR 0b0000000#7 rs2 rs1 0b101#3 rd 0b0110011#7
  | .sra rd rs1 rs2 => encodeR 0b0100000#7 rs2 rs1 0b101#3 rd 0b0110011#7
  | .or rd rs1 rs2 => encodeR 0b0000000#7 rs2 rs1 0b110#3 rd 0b0110011#7
  | .and rd rs1 rs2 => encodeR 0b0000000#7 rs2 rs1 0b111#3 rd 0b0110011#7
  | .addi rd rs1 imm => encodeI imm rs1 0b000#3 rd 0b0010011#7
  | .slti rd rs1 imm => encodeI imm rs1 0b010#3 rd 0b0010011#7
  | .sltiu rd rs1 imm => encodeI imm rs1 0b011#3 rd 0b0010011#7
  | .xori rd rs1 imm => encodeI imm rs1 0b100#3 rd 0b0010011#7
  | .ori rd rs1 imm => encodeI imm rs1 0b110#3 rd 0b0010011#7
  | .andi rd rs1 imm => encodeI imm rs1 0b111#3 rd 0b0010011#7
  | .slli rd rs1 shamt => encodeR 0b0000000#7 shamt rs1 0b001#3 rd 0b0010011#7
  | .srli rd rs1 shamt => encodeR 0b0000000#7 shamt rs1 0b101#3 rd 0b0010011#7
  | .srai rd rs1 shamt => encodeR 0b0100000#7 shamt rs1 0b101#3 rd 0b0010011#7
  | .lw rd imm rs1 => encodeI imm rs1 0b010#3 rd 0b0000011#7
  | .sw rs2 imm rs1 => encodeS imm rs2 rs1 0b010#3 0b0100011#7
  | .beq rs1 rs2 imm => encodeB imm rs2 rs1 0b000#3 0b1100011#7
  | .bne rs1 rs2 imm => encodeB imm rs2 rs1 0b001#3 0b1100011#7
  | .blt rs1 rs2 imm => encodeB imm rs2 rs1 0b100#3 0b1100011#7
  | .bge rs1 rs2 imm => encodeB imm rs2 rs1 0b101#3 0b1100011#7
  | .bltu rs1 rs2 imm => encodeB imm rs2 rs1 0b110#3 0b1100011#7
  | .bgeu rs1 rs2 imm => encodeB imm rs2 rs1 0b111#3 0b1100011#7
  | .lui rd imm20 => encodeU imm20 rd 0b0110111#7
  | .auipc rd imm20 => encodeU imm20 rd 0b0010111#7
  | .jal rd imm => encodeJ imm rd 0b1101111#7
  | .jalr rd rs1 imm => encodeI imm rs1 0b000#3 rd 0b1100111#7

end Sys2Proof
end

