-- ==== Sys2Proof/Machine/Flags.lean ====
section
/-!
DEFINITION. The core has no flags (10_state.md R27). What takes their place: the truth value a comparison writes
to a register (41_r_type_alu.md R160, log 16) and the condition a branch consumes (44_branch.md R210).
-/

namespace Sys2Proof.Machine

/-- True is the word 1, false the word 0 (R160; G6, log 16). -/
def truthWord (p : Bool) : Word := if p then 1#32 else 0#32

/-- `s(a) < s(b)` (R8). -/
def signedLess (a b : Word) : Bool := a.slt b

/-- `u(a) < u(b)` (R8). -/
def unsignedLess (a b : Word) : Bool := a.ult b

/-- The condition of a branch, `rs1` on the left (R210; G7, log 16). -/
def Comparator.holds : Comparator → Word → Word → Bool
  | .eq, a, b => a == b
  | .ne, a, b => a != b
  | .lt, a, b => signedLess a b
  | .ge, a, b => !signedLess a b
  | .ltu, a, b => unsignedLess a b
  | .geu, a, b => !unsignedLess a b

end Sys2Proof.Machine
end

