-- ==== Sys2Proof/Machine/Alu.lean ====
section
/-!
DEFINITION. The integer ALU (41_r_type_alu.md R160, R161): a pure function of an operation and two words.
-/

namespace Sys2Proof.Machine

/-- Only bits 4..0 of the shift operand count (R161). -/
def shiftAmount (b : Word) : Nat := (b.extractLsb' 0 5).toNat

/-- `ALU(op, a, b)` of R160. -/
def alu : AluOp → Word → Word → Word
  | .add, a, b => a + b
  | .sub, a, b => a - b
  | .and, a, b => a &&& b
  | .or, a, b => a ||| b
  | .xor, a, b => a ^^^ b
  | .sll, a, b => a <<< shiftAmount b
  | .srl, a, b => a >>> shiftAmount b
  | .sra, a, b => a.sshiftRight (shiftAmount b)
  | .slt, a, b => truthWord (signedLess a b)
  | .sltu, a, b => truthWord (unsignedLess a b)

end Sys2Proof.Machine
end

