-- ==== Sys2Proof/Machine/Control.lean ====
section
/-!
DEFINITION. The decoder's control outputs and the snapshot of a completed instruction (40_step_and_decode.md
R141 to R143; the table and the names are D16's, log 25).
-/

namespace Sys2Proof.Machine

/-- The table of R141; `taken` matters to class B only. -/
def controlLines : InstrClass → Bool → ControlLines
  | .r, _ => ⟨true, false, false, false, false⟩
  | .i, _ => ⟨true, true, false, false, false⟩
  | .l, _ => ⟨true, true, true, false, false⟩
  | .s, _ => ⟨false, true, false, true, false⟩
  | .b, taken => ⟨false, false, false, false, taken⟩

/-- The snapshot of a class R instruction (R143): its result, no immediate. -/
def signalR (op : AluOp) (result : Word) : Signal := ⟨.r, controlLines .r false, .op op, some result, none⟩

/-- The snapshot of a class I instruction (R143): its result and its immediate or shift amount. -/
def signalI (op : AluOp) (result imm : Word) : Signal := ⟨.i, controlLines .i false, .op op, some result, some imm⟩

/-- The snapshot of an admitted `lw` (R143): the effective address and the immediate. -/
def signalL (ea imm : Word) : Signal := ⟨.l, controlLines .l false, .op .add, some ea, some imm⟩

/-- The snapshot of an admitted `sw` (R143): the effective address and the immediate. -/
def signalS (ea imm : Word) : Signal := ⟨.s, controlLines .s false, .op .add, some ea, some imm⟩

/-- The snapshot of a branch (R143): the comparison and the displacement; the result field is absent. -/
def signalB (c : Comparator) (taken : Bool) (imm : Word) : Signal :=
  ⟨.b, controlLines .b taken, .cmp c, none, some imm⟩

end Sys2Proof.Machine
end

