-- ==== Sys2Proof/Machine/State.lean ====
section
/-!
DEFINITION. The state of the core (10_state.md), the reasons a step can stop, and the state after reset (R35).
-/

namespace Sys2Proof.Machine

/-- The engine phase (10_state.md R28): the document's four states and the fifth the spec adds. -/
inductive Phase where
  | ready | executing | halted | finished | faulted
  deriving DecidableEq, Repr

/-- The four error kinds (60_exceptions.md R242 to R246). -/
inductive DiagKind where
  | unsupportedOpcode | invalidRegisterIndex | memoryOutOfBounds | insufficientOperands
  deriving DecidableEq, Repr

/-- One entry of the diagnostic log: the kind and the address of the offending instruction (R31, R241). -/
structure Diag where
  kind : DiagKind
  pc : Word
  deriving DecidableEq, Repr

/-- What the MisalignedTarget fault records: the instruction's address and the target (R251). -/
structure FaultRecord where
  pc : Word
  target : Word
  deriving DecidableEq, Repr

/-- Data memory as (address, byte) cells: addresses strictly rising, no cell equal to an unlisted byte (log 1). -/
abbrev Memory := List Host.Cell

/-- The program memory PROG: L words, L within the bound of R7 (R33; the bound is U7's hypothesis, log 18). -/
structure Program where
  words : List Word
  bound : words.length ≤ Config.maxProgLen
  deriving DecidableEq, Repr

/-- The parameter MEM_WORDS with the bounds of R7 (U7's hypotheses, log 18). -/
structure MemSize where
  words : Nat
  pos : 1 ≤ words
  bound : words ≤ Config.maxMemWords
  deriving DecidableEq, Repr

/-- The whole state of the core (10_state.md), with the parameters of R7 that a step reads (log 2). -/
structure State where
  /-- x1 to x31; x0 has no storage (R20, R21). -/
  x : Vector Word 31
  /-- The program counter, a byte offset into the program (R24). -/
  pc : Word
  /-- The engine phase (R28). -/
  phase : Phase
  /-- True while a run loop is active (R29). -/
  running : Bool
  /-- The data memory (R32, R52). -/
  mem : Memory
  /-- The diagnostic log, oldest first (R31). -/
  diag : List Diag
  /-- What the MisalignedTarget fault recorded (R251; log 4). -/
  faultRecord : Option FaultRecord
  /-- The execution signal snapshot; none when cleared (R34). -/
  signal : Option Signal
  /-- The last-modified register index; none is the spec's -1 (R146). -/
  lastReg : Option RegIdx
  /-- The last-modified memory word index; none is the spec's -1 (R146). -/
  lastMem : Option Nat
  /-- The program memory (R33). -/
  prog : Program
  /-- The parameter MEM_WORDS (R7). -/
  memSize : MemSize
  /-- The parameter UJ_EXEC (R7, R230). -/
  ujExec : UjExec
  /-- The model's own: which free value is drawn next (log 5). -/
  freeCount : Nat
  deriving DecidableEq, Repr

/-- Reasons a step stops with a fault. There is none: the spec gives every word and every data address an effect
(R103, R240, R241), and its own `fault MisalignedTarget` is a next state with phase `faulted` (R250, log 3). -/
inductive Fault where
  deriving DecidableEq, Repr

/-- Reasons a step is refused. -/
inductive Refusal where
  /-- No meaning has been written for the instruction. Raised by no arm of `exec`; safe. -/
  | notModelled (mnemonic : String)
  deriving DecidableEq, Repr

/-- The empty program: nothing has been loaded (R273). -/
def Program.empty : Program := ⟨[], by decide⟩

/-- MEM_WORDS at its default (R7). -/
def MemSize.default : MemSize := ⟨Config.defaultMemWords, by decide, by decide⟩

/-- The state right after reset (R35), with the default parameters and no program loaded (log 2, log 21). -/
def State.reset : State where
  x := Vector.replicate 31 0#32
  pc := 0#32
  phase := .ready
  running := false
  mem := []
  diag := []
  faultRecord := none
  signal := none
  lastReg := none
  lastMem := none
  prog := Program.empty
  memSize := MemSize.default
  ujExec := .skip
  freeCount := 0

end Sys2Proof.Machine
end

