-- ==== Sys2Proof/Machine/Ops.lean ====
section
/-!
DEFINITION. The named operations over registers, memory, the program and the phase, on which every meaning is
written: register access (10_state.md R21), data memory (20_memory.md R52 to R57), the program-counter and phase
update (40_step_and_decode.md R138, R139), the recovered error `raise` (60_exceptions.md R241) and the fault
(R250). There is no return from either (R252).
-/

namespace Sys2Proof.Machine

/-! ## Registers (R20, R21) -/

/-- `x[r]`: x0 reads 0 (R21). -/
def State.reg (s : State) (r : RegIdx) : Word :=
  if h : r.toNat = 0 then 0#32 else s.x[r.toNat - 1]'(by omega)

/-- `x[r] <- v`: a write to x0 is discarded (R21). -/
def State.setReg (s : State) (r : RegIdx) (v : Word) : State :=
  if h : r.toNat = 0 then s else { s with x := s.x.set (r.toNat - 1) v (by omega) }

/-! ## Bytes of the data memory (log 1) -/

/-- The byte at an address; an unlisted one holds its reset contents (R35). -/
def Memory.readByte : Memory → Nat → Byte
  | [], _ => Config.unlistedByte
  | (k, b) :: m, a => if k = a then b else Memory.readByte m a

/-- The canonical form is kept: a byte equal to an unlisted one has no cell. -/
def Memory.writeByte : Memory → Nat → Byte → Memory
  | [], a, v => if v = Config.unlistedByte then [] else [(a, v)]
  | (k, b) :: m, a, v =>
    if k = a then (if v = Config.unlistedByte then m else (a, v) :: m)
    else if a < k then (if v = Config.unlistedByte then (k, b) :: m else (a, v) :: (k, b) :: m)
    else (k, b) :: Memory.writeByte m a v

/-- Every address is at least `lo`, addresses rise strictly, no cell holds an unlisted byte's value. -/
def Memory.wfFrom (lo : Nat) : Memory → Bool
  | [] => true
  | (k, b) :: m => decide (lo ≤ k) && (b != Config.unlistedByte) && Memory.wfFrom (k + 1) m

/-- The canonical form of a memory. -/
def Memory.wf (m : Memory) : Bool := Memory.wfFrom 0 m

/-- No cell lies at or past byte address `top`. -/
def Memory.below (m : Memory) (top : Nat) : Bool := m.all (fun c => decide (c.1 < top))

/-! ## Words of the data memory (R52) -/

/-- `mem[i]`: the word whose four byte addresses are 4i to 4i+3 (R52; byte layout log 1). -/
def Memory.readWord (m : Memory) (i : Nat) : Word :=
  m.readByte (4 * i + 3) ++ (m.readByte (4 * i + 2) ++ (m.readByte (4 * i + 1) ++ m.readByte (4 * i)))

/-- `mem[i] <- v`: all 32 bits of the word are replaced (R57). -/
def Memory.writeWord (m : Memory) (i : Nat) (v : Word) : Memory :=
  (((m.writeByte (4 * i) (v.extractLsb' 0 8)).writeByte (4 * i + 1) (v.extractLsb' 8 8)).writeByte
    (4 * i + 2) (v.extractLsb' 16 8)).writeByte (4 * i + 3) (v.extractLsb' 24 8)

/-- `N`, the number of data words. -/
def State.memWords (s : State) : Nat := s.memSize.words

/-- The bounds check of R54: `u(ea) < 4 * N`. -/
def State.admits (s : State) (ea : Word) : Bool := decide (ea.toNat < 4 * s.memWords)

/-- The word index of R55: `floor(u(ea) / 4)`; the two low bits of `ea` are ignored. -/
def wordIndex (ea : Word) : Nat := ea.toNat / 4

/-- `MemRead(ea, 4)` (R56); none is `rejected`. -/
def State.memRead (s : State) (ea : Word) : Option Word :=
  if s.admits ea then some (s.mem.readWord (wordIndex ea)) else none

/-- `MemWrite(ea, 4, v)` (R57); none is `rejected`. -/
def State.memWrite (s : State) (ea v : Word) : Option State :=
  if s.admits ea then some { s with mem := s.mem.writeWord (wordIndex ea) v } else none

/-! ## The program (R33, R51) -/

/-- `L`, the number of instruction words. -/
def State.progLen (s : State) : Nat := s.prog.words.length

/-- The instruction index of a program counter value, `floor(u(pc) / 4)` (R24, R132). -/
def instrIndex (pc : Word) : Nat := pc.toNat / 4

/-- Fetch (R133): the word at the instruction index, none past the program (R51, R132). -/
def State.fetch (s : State) : Option Word := s.prog.words[instrIndex s.pc]?

/-! ## Program counter and phase (R138, R139) -/

/-- The phase after an instruction that went on to `pc` (R139). -/
def phaseAt (len : Nat) (pc : Word) : Phase := if len ≤ instrIndex pc then .finished else .executing

/-- `pc <- t`, and the phase R139 gives the new index. -/
def State.goTo (s : State) (t : Word) : State := { s with pc := t, phase := phaseAt s.progLen t }

/-- `pc <- pc +32 4`, and the phase (R25, R138, R139). -/
def State.advance (s : State) : State := s.goTo (s.pc + 4#32)

/-! ## The observation record: snapshot and last-modified indices (R34, R143, R146) -/

/-- A step whose observations the rules give (R143, R146). -/
def State.observe (s : State) (sig : Signal) (lastReg : Option RegIdx) (lastMem : Option Nat) : State :=
  { s with signal := some sig, lastReg := lastReg, lastMem := lastMem }

/-- A step that completes no instruction: the observations are free values (R144, U11, D17; log 5). Every such step
draws anew: past the end, HALT, a recovered error, a fault, a stuck step. -/
def State.observeFree (s : State) : State :=
  { s with
    signal := Config.freeSignal s.freeCount
    lastReg := Config.freeLastReg s.freeCount
    lastMem := Config.freeLastMem s.freeCount
    freeCount := s.freeCount + 1 }

/-- The index reported for a register write; for x0 it is 0 or none, a free value (R146, U12; log 6). -/
def reportedReg (draw : Nat) (rd : RegIdx) : Option RegIdx :=
  if rd = 0#5 then (if Config.freeX0Reported draw then some 0#5 else none) else some rd

/-- Commit a register result with its observations (R137, R143, R146). -/
def State.commitReg (s : State) (rd : RegIdx) (v : Word) (sig : Option Signal) : State :=
  { s.setReg rd v with
    signal := sig
    lastReg := reportedReg s.freeCount rd
    lastMem := none
    freeCount := s.freeCount + 1 }

/-! ## The end of the program, the stuck step, recovered errors, the fault, HALT -/

/-- The step at or past the end of the program: `phase <- finished` (R132). R132 also keeps the snapshot, R144 leaves
it unspecified: the observations are free (log 5). -/
def State.finish (s : State) : State := { s.observeFree with phase := .finished }

/-- The step of a faulted core: nothing changes (R139) but the observations, which are free (U11, D17; log 5). -/
def State.stuck (s : State) : State := s.observeFree

/-- `raise Kind` (R241): no register and no word is written, one diagnostic is appended, `pc <- pc +32 4`. -/
def State.raise (s : State) (kind : DiagKind) : State :=
  State.advance { s.observeFree with diag := s.diag ++ [Diag.mk kind s.pc] }

/-- `fault MisalignedTarget` (R250, R251): nothing is written, `phase <- faulted`, `running <- false` (log 3, log 4). -/
def State.faultMisaligned (s : State) (target : Word) : State :=
  { s.observeFree with phase := .faulted, running := false, faultRecord := some ⟨s.pc, target⟩ }

/-- HALT (R218): `phase <- halted`, `running <- false`, the observations free (R144, log 5); met again in `halted` it
has the same outcome (R134, log 14). -/
def State.halt (s : State) : State := { s.observeFree with phase := .halted, running := false }

/-- A control transfer to `t` is possible only if `t` is a multiple of 4 (R211, R235). -/
def alignedTarget (t : Word) : Bool := t.extractLsb' 0 2 == 0b00#2

/-! ## Placing a word where the next step fetches (log 21) -/

/-- The program's words with word `k` replaced, the gap up to `k` filled with HALT words. -/
def placeWord (ws : List Word) (k : Nat) (w : Word) : List Word :=
  if k < ws.length then ws.set k w else ws ++ (List.replicate (k - ws.length) Config.haltWord ++ [w])

theorem placeWord_length (ws : List Word) (k : Nat) (w : Word) :
    (placeWord ws k w).length = max ws.length (k + 1) := by
  unfold placeWord
  split <;> simp <;> omega

/-- The program with word `k` replaced; past the bound of R7 the program is left as it is. -/
def Program.place (p : Program) (k : Nat) (w : Word) : Program :=
  if h : k < Config.maxProgLen then
    ⟨placeWord p.words k w, by rw [placeWord_length]; exact Nat.max_le.mpr ⟨p.bound, h⟩⟩
  else p

/-- The state whose next step fetches and runs exactly `w` (log 21). -/
def State.placeFetch (s : State) (w : Word) : State :=
  let at0 : State := if instrIndex s.pc < Config.maxProgLen then s else { s with pc := 0#32 }
  { at0 with
    prog := at0.prog.place (instrIndex at0.pc) w
    phase := if s.phase = .faulted then .executing else s.phase }

end Sys2Proof.Machine
end

