-- ==== Sys2Proof/Machine/Operands.lean ====
section
/-!
DEFINITION. The operand forms: immediates extended to 32 bits (30_encoding.md R89 to R94) and the one addressing
mode (20_memory.md R53, 43_load_store.md R200).
-/

namespace Sys2Proof.Machine

/-- `imm_I` and `imm_S`: 12 bits sign-extended (R89, R90). -/
def immWord (imm : BitVec 12) : Word := imm.signExtend 32

/-- `imm_B`: 13 bits sign-extended (R91). -/
def immBWord (imm : BitVec 13) : Word := imm.signExtend 32

/-- `imm_J`: 21 bits sign-extended (R93). -/
def immJWord (imm : BitVec 21) : Word := imm.signExtend 32

/-- `imm_U`: the field in the upper 20 bits, 12 zero bits below (R92; G5, log 15). -/
def immUWord (imm20 : BitVec 20) : Word := imm20 ++ 0#12

/-- `zext_32(shamt)` (R94, R180). -/
def shamtWord (shamt : BitVec 5) : Word := shamt.setWidth 32

/-- The effective address: base register plus signed offset, modulo 2^32 (R53, R200; log 11). -/
def State.effectiveAddress (s : State) (rs1 : RegIdx) (imm : BitVec 12) : Word := s.reg rs1 + immWord imm

/-- A branch target: the branch's own address plus the displacement (R210). -/
def State.branchTarget (s : State) (imm : BitVec 13) : Word := s.pc + immBWord imm

/-- The target of `jal` under UJ_EXEC = rv32i (R233; log 15). -/
def State.jalTarget (s : State) (imm : BitVec 21) : Word := s.pc + immJWord imm

/-- The target of `jalr` under UJ_EXEC = rv32i: the sum with bit 0 cleared (R234; log 15). -/
def State.jalrTarget (s : State) (rs1 : RegIdx) (imm : BitVec 12) : Word :=
  (s.reg rs1 + immWord imm) &&& 0xFFFFFFFE#32

end Sys2Proof.Machine
end

