-- ==== Sys2Proof/Machine/Branch.lean ====
section
/-!
DEFINITION. The conditional branches and the HALT sentinel (44_branch.md R210 to R218).
-/

namespace Sys2Proof.Machine

/-- The common part of class B (R210, R211). -/
def classB (c : Comparator) (rs1 rs2 : RegIdx) (imm : BitVec 13) (s : State) : State :=
  let taken := c.holds (s.reg rs1) (s.reg rs2)
  if taken then
    if alignedTarget (s.branchTarget imm) then
      (s.observe (signalB c taken (immBWord imm)) none none).goTo (s.branchTarget imm)
    else s.faultMisaligned (s.branchTarget imm)
  else (s.observe (signalB c taken (immBWord imm)) none none).advance

/-- `beq` (R212). -/
def execBeq (rs1 rs2 : RegIdx) (imm : BitVec 13) (s : State) : Host.Outcome State Fault Refusal :=
  .next (classB .eq rs1 rs2 imm s)

/-- `bne` (R213). -/
def execBne (rs1 rs2 : RegIdx) (imm : BitVec 13) (s : State) : Host.Outcome State Fault Refusal :=
  .next (classB .ne rs1 rs2 imm s)

/-- `blt` (R214). -/
def execBlt (rs1 rs2 : RegIdx) (imm : BitVec 13) (s : State) : Host.Outcome State Fault Refusal :=
  .next (classB .lt rs1 rs2 imm s)

/-- `bge` (R215). -/
def execBge (rs1 rs2 : RegIdx) (imm : BitVec 13) (s : State) : Host.Outcome State Fault Refusal :=
  .next (classB .ge rs1 rs2 imm s)

/-- `bltu` (R216). -/
def execBltu (rs1 rs2 : RegIdx) (imm : BitVec 13) (s : State) : Host.Outcome State Fault Refusal :=
  .next (classB .ltu rs1 rs2 imm s)

/-- `bgeu` (R217). -/
def execBgeu (rs1 rs2 : RegIdx) (imm : BitVec 13) (s : State) : Host.Outcome State Fault Refusal :=
  .next (classB .geu rs1 rs2 imm s)

/-- HALT (R218). -/
def execHalt (s : State) : Host.Outcome State Fault Refusal := .next s.halt

end Sys2Proof.Machine
end

