-- ==== Sys2Proof/Machine/ClassI.lean ====
section
/-!
DEFINITION. The register-immediate instructions (42_i_type_alu.md R180 to R189).
-/

namespace Sys2Proof.Machine

/-- The common part of class I (R180): the second operand is a 32-bit immediate. -/
def classI (op : AluOp) (rd rs1 : RegIdx) (b : Word) (s : State) : State :=
  let v := alu op (s.reg rs1) b
  (s.commitReg rd v (some (signalI op v b))).advance

/-- `addi` (R181). -/
def execAddi (rd rs1 : RegIdx) (imm : BitVec 12) (s : State) : Host.Outcome State Fault Refusal :=
  .next (classI .add rd rs1 (immWord imm) s)

/-- `slti` (R185). -/
def execSlti (rd rs1 : RegIdx) (imm : BitVec 12) (s : State) : Host.Outcome State Fault Refusal :=
  .next (classI .slt rd rs1 (immWord imm) s)

/-- `sltiu` (R186): the immediate is sign-extended, then compared as unsigned. -/
def execSltiu (rd rs1 : RegIdx) (imm : BitVec 12) (s : State) : Host.Outcome State Fault Refusal :=
  .next (classI .sltu rd rs1 (immWord imm) s)

/-- `xori` (R184). -/
def execXori (rd rs1 : RegIdx) (imm : BitVec 12) (s : State) : Host.Outcome State Fault Refusal :=
  .next (classI .xor rd rs1 (immWord imm) s)

/-- `ori` (R183). -/
def execOri (rd rs1 : RegIdx) (imm : BitVec 12) (s : State) : Host.Outcome State Fault Refusal :=
  .next (classI .or rd rs1 (immWord imm) s)

/-- `andi` (R182). -/
def execAndi (rd rs1 : RegIdx) (imm : BitVec 12) (s : State) : Host.Outcome State Fault Refusal :=
  .next (classI .and rd rs1 (immWord imm) s)

/-- `slli` (R187). -/
def execSlli (rd rs1 : RegIdx) (shamt : BitVec 5) (s : State) : Host.Outcome State Fault Refusal :=
  .next (classI .sll rd rs1 (shamtWord shamt) s)

/-- `srli` (R188). -/
def execSrli (rd rs1 : RegIdx) (shamt : BitVec 5) (s : State) : Host.Outcome State Fault Refusal :=
  .next (classI .srl rd rs1 (shamtWord shamt) s)

/-- `srai` (R189). -/
def execSrai (rd rs1 : RegIdx) (shamt : BitVec 5) (s : State) : Host.Outcome State Fault Refusal :=
  .next (classI .sra rd rs1 (shamtWord shamt) s)

end Sys2Proof.Machine
end

