-- ==== Sys2Proof/Machine/ClassR.lean ====
section
/-!
DEFINITION. The register-register instructions (41_r_type_alu.md R162 to R172).
-/

namespace Sys2Proof.Machine

/-- The common part of class R (R162): both sources are read before the destination is written. -/
def classR (op : AluOp) (rd rs1 rs2 : RegIdx) (s : State) : State :=
  let v := alu op (s.reg rs1) (s.reg rs2)
  (s.commitReg rd v (some (signalR op v))).advance

/-- `add` (R163). -/
def execAdd (rd rs1 rs2 : RegIdx) (s : State) : Host.Outcome State Fault Refusal := .next (classR .add rd rs1 rs2 s)

/-- `sub` (R164). -/
def execSub (rd rs1 rs2 : RegIdx) (s : State) : Host.Outcome State Fault Refusal := .next (classR .sub rd rs1 rs2 s)

/-- `sll` (R168). -/
def execSll (rd rs1 rs2 : RegIdx) (s : State) : Host.Outcome State Fault Refusal := .next (classR .sll rd rs1 rs2 s)

/-- `slt` (R171). -/
def execSlt (rd rs1 rs2 : RegIdx) (s : State) : Host.Outcome State Fault Refusal := .next (classR .slt rd rs1 rs2 s)

/-- `sltu` (R172). -/
def execSltu (rd rs1 rs2 : RegIdx) (s : State) : Host.Outcome State Fault Refusal := .next (classR .sltu rd rs1 rs2 s)

/-- `xor` (R167). -/
def execXor (rd rs1 rs2 : RegIdx) (s : State) : Host.Outcome State Fault Refusal := .next (classR .xor rd rs1 rs2 s)

/-- `srl` (R169). -/
def execSrl (rd rs1 rs2 : RegIdx) (s : State) : Host.Outcome State Fault Refusal := .next (classR .srl rd rs1 rs2 s)

/-- `sra` (R170). -/
def execSra (rd rs1 rs2 : RegIdx) (s : State) : Host.Outcome State Fault Refusal := .next (classR .sra rd rs1 rs2 s)

/-- `or` (R166). -/
def execOr (rd rs1 rs2 : RegIdx) (s : State) : Host.Outcome State Fault Refusal := .next (classR .or rd rs1 rs2 s)

/-- `and` (R165). -/
def execAnd (rd rs1 rs2 : RegIdx) (s : State) : Host.Outcome State Fault Refusal := .next (classR .and rd rs1 rs2 s)

end Sys2Proof.Machine
end

