-- ==== Sys2Proof/Machine/LoadStore.lean ====
section
/-!
DEFINITION. `lw` and `sw` (43_load_store.md R200 to R202).
-/

namespace Sys2Proof.Machine

/-- `lw` (R201): a rejected address raises MemoryOutOfBounds and leaves the destination as it was (C3). -/
def execLw (rd : RegIdx) (imm : BitVec 12) (rs1 : RegIdx) (s : State) : Host.Outcome State Fault Refusal :=
  let ea := s.effectiveAddress rs1 imm
  match s.memRead ea with
  | none => .next (s.raise .memoryOutOfBounds)
  | some v => .next (s.commitReg rd v (some (signalL ea (immWord imm)))).advance

/-- `sw` (R202): a rejected address raises MemoryOutOfBounds and changes no word. -/
def execSw (rs2 : RegIdx) (imm : BitVec 12) (rs1 : RegIdx) (s : State) : Host.Outcome State Fault Refusal :=
  let ea := s.effectiveAddress rs1 imm
  match s.memWrite ea (s.reg rs2) with
  | none => .next (s.raise .memoryOutOfBounds)
  | some t => .next (t.observe (signalS ea (immWord imm)) none (some (wordIndex ea))).advance

end Sys2Proof.Machine
end

