-- ==== Sys2Proof/Machine/UpperJump.lean ====
section
/-!
DEFINITION. `lui auipc jal jalr` under both values of UJ_EXEC (45_upper_and_jump.md R230 to R235). Under `skip`
each is a recovered error; under `rv32i` each has the semantics the rules write under "RV32I operation" (log 15),
with a free snapshot, since no rule gives one (log 7).
-/

namespace Sys2Proof.Machine

/-- The common part under `skip` (R230). -/
def ujSkipped (s : State) : State := s.raise .unsupportedOpcode

/-- Write `rd` and go to `t`, the common part under `rv32i` (R231, R232). -/
def ujWrite (rd : RegIdx) (v t : Word) (s : State) : State := (s.commitReg rd v (Config.freeSignal s.freeCount)).goTo t

/-- The common part of a jump under `rv32i`: a misaligned target writes nothing (R233 to R235). -/
def ujJump (rd : RegIdx) (t : Word) (s : State) : State :=
  if alignedTarget t then ujWrite rd (s.pc + 4#32) t s else s.faultMisaligned t

/-- `lui` (R231). -/
def execLui (rd : RegIdx) (imm20 : BitVec 20) (s : State) : Host.Outcome State Fault Refusal :=
  match s.ujExec with
  | .skip => .next (ujSkipped s)
  | .rv32i => .next (ujWrite rd (immUWord imm20) (s.pc + 4#32) s)

/-- `auipc` (R232). -/
def execAuipc (rd : RegIdx) (imm20 : BitVec 20) (s : State) : Host.Outcome State Fault Refusal :=
  match s.ujExec with
  | .skip => .next (ujSkipped s)
  | .rv32i => .next (ujWrite rd (s.pc + immUWord imm20) (s.pc + 4#32) s)

/-- `jal` (R233). -/
def execJal (rd : RegIdx) (imm : BitVec 21) (s : State) : Host.Outcome State Fault Refusal :=
  match s.ujExec with
  | .skip => .next (ujSkipped s)
  | .rv32i => .next (ujJump rd (s.jalTarget imm) s)

/-- `jalr` (R234): the target is read before `rd` is written. -/
def execJalr (rd rs1 : RegIdx) (imm : BitVec 12) (s : State) : Host.Outcome State Fault Refusal :=
  match s.ujExec with
  | .skip => .next (ujSkipped s)
  | .rv32i => .next (ujJump rd (s.jalrTarget rs1 imm) s)

end Sys2Proof.Machine
end

