-- ==== Sys2Proof/Machine/Step.lean ====
section
/-!
DEFINITION. The step (40_step_and_decode.md R131), its tests in the order of that rule, and `withFetchWord`.
-/

namespace Sys2Proof.Machine

/-- One step: stuck (R139), finished (R132), else fetch (R133), decode (R101) and execute; an unrecognised word
raises UnsupportedOpcode (R103, R135). HALT is an instruction like the others: the decoder tests it first (R101, R134). -/
def step (s : State) : Host.Outcome State Fault Refusal :=
  if s.phase = .faulted then .next s.stuck
  else
    match s.fetch with
    | none => .next s.finish
    | some w =>
      match decode w with
      | .error _ => .next (s.raise .unsupportedOpcode)
      | .ok i => exec i s

/-- The state whose next step fetches and runs the instruction of bits `w` (log 21). -/
def State.withFetchWord (s : State) (nbits w : Nat) : State := s.placeFetch (BitVec.ofNat 32 (w % 2 ^ nbits))

end Sys2Proof.Machine
end

