-- ==== Sys2Proof/Machine/HostOps.lean ====
section
/-!
DEFINITION. What the host can do to the core between steps (40_step_and_decode.md R130, R140, R146;
70_reset_and_hazards.md R270, R271, R281; log 24).
-/

namespace Sys2Proof.Machine

/-! ## Reset and load -/

/-- `reset` (R270): every piece of state at its value of R35; the program and the parameters are kept. The model's
own draw counter is kept too, so that no two resets are forced to draw the same free values (log 5). -/
def State.hostReset (s : State) : State :=
  { State.reset with prog := s.prog, memSize := s.memSize, ujExec := s.ujExec, freeCount := s.freeCount }

/-- `load(PROG)` (R271): the whole program is replaced, then the core is reset. -/
def State.load (s : State) (p : Program) : State := { s with prog := p }.hostReset

/-- A program from a list of words, refused when it is longer than R7 allows (U7, U21; log 18). -/
def Program.ofWords? (ws : List Word) : Option Program :=
  if h : ws.length ≤ Config.maxProgLen then some ⟨ws, h⟩ else none

/-- MEM_WORDS from a number, refused outside the bounds of R7 (U7; log 18). -/
def MemSize.ofNat? (n : Nat) : Option MemSize :=
  if h : 1 ≤ n ∧ n ≤ Config.maxMemWords then some ⟨n, h.1, h.2⟩ else none

/-- The words of a byte image, four bytes a word, least significant first (D7, log 1); none if bytes are left over. -/
def wordsOfBytes : List Byte → Option (List Word)
  | [] => some []
  | b0 :: b1 :: b2 :: b3 :: rest => (wordsOfBytes rest).map (wordOfBytes b0 b1 b2 b3 :: ·)
  | _ => none

/-- A core with the parameters of R7 and a program, in its reset state (R36, R271). -/
def State.build (size : MemSize) (uj : UjExec) (p : Program) : State :=
  State.load { State.reset with memSize := size, ujExec := uj } p

/-! ## The run loop (R140) -/

/-- The phases at which a run loop stops by itself (R140). -/
def Phase.stopsRun : Phase → Bool
  | .ready => false
  | .executing => false
  | .halted => true
  | .finished => true
  | .faulted => true

/-- What begins a loop: `running <- true` (R140). -/
def State.startRun (s : State) : State := { s with running := true }

/-- The host operation `stop` (R140). -/
def State.stop (s : State) : State := { s with running := false }

/-- The loop's own end: `running <- false` when the step ended in a stopping phase (R29, R140). -/
def State.settleRun (s : State) : State := if s.phase.stopsRun then s.stop else s

/-- One round of an active loop: a step, then the loop's end if it stopped (R140). Without a loop nothing happens. -/
def runTick (s : State) : Host.Outcome State Fault Refusal :=
  if s.running then
    match step s with
    | .next t => .next t.settleRun
    | .fault f => .fault f
    | .refused r => .refused r
  else .next s

/-- The host operation `run` (R140): it begins a loop, whose first step is taken at once, before the first delay; while
a loop is active it stops that one and starts none ("toggle semantics, not stacking"). -/
def State.hostRun (s : State) : Host.Outcome State Fault Refusal :=
  if s.running then .next s.stop else runTick s.startRun

/-- At most `fuel` rounds of the loop; it ends by itself when `running` is false (R140, D21; log 24). -/
def runLoop : Nat → State → Host.Outcome State Fault Refusal
  | 0, s => .next s
  | fuel + 1, s =>
    if s.running then
      match runTick s with
      | .next t => runLoop fuel t
      | .fault f => .fault f
      | .refused r => .refused r
    else .next s

/-! ## The host's operations (R130) -/

/-- The operations of R130, and the passing of one inter-step delay of an active loop. -/
inductive HostOp where
  | load (p : Program)
  | step
  | run
  | stop
  | reset
  /-- `set-execution-delay(milliseconds)`: no effect on any state (R281). -/
  | setDelay (milliseconds : Nat)
  /-- The delay of an active run loop has passed: its next round (R140). -/
  | tick
  deriving DecidableEq, Repr

/-- Operations never overlap: a single step may be asked for only while no loop is active (R130). -/
def HostOp.allowed (op : HostOp) (s : State) : Bool :=
  match op with
  | .step => !s.running
  | .load _ => true
  | .run => true
  | .stop => true
  | .reset => true
  | .setDelay _ => true
  | .tick => s.running

/-- The effect of one host operation. -/
def HostOp.apply (op : HostOp) (s : State) : Host.Outcome State Fault Refusal :=
  match op with
  | .load p => .next (s.load p)
  | .step => Sys2Proof.Machine.step s
  | .run => s.hostRun
  | .stop => .next s.stop
  | .reset => .next s.hostReset
  | .setDelay _ => .next s
  | .tick => runTick s

/-! ## What the host receives after a step (R146) -/

/-- The outputs of R146, less the trace line (R145). -/
structure HostView where
  pc : Word
  regs : List Word
  mem : List Word
  /-- -1 if no register was modified. -/
  lastReg : Int
  /-- -1 if no memory word was modified. -/
  lastMem : Int
  signal : Option Signal
  deriving DecidableEq, Repr

/-- The host's copy of the state after a step (R146). -/
def State.hostView (s : State) : HostView where
  pc := s.pc
  regs := (List.range 32).map (fun r => s.reg (BitVec.ofNat 5 r))
  mem := (List.range s.memWords).map s.mem.readWord
  lastReg := match s.lastReg with | none => -1 | some r => r.toNat
  lastMem := match s.lastMem with | none => -1 | some i => i
  signal := s.signal

end Sys2Proof.Machine
end

