-- ==== Sys2Proof/Machine/Assembler.lean ====
section
/-!
DEFINITION. The text level, which defines what words the decoder meets (00_scope.md R4 g): the Program Loader
(30_encoding.md R111), the Mnemonic Parser (R113, R114), the Binary Encoder (R116, R117), the export artifact (R119)
and the operand validation that exists only there (40_step_and_decode.md R136; 60_exceptions.md R243, R245).
Text is a list of characters. What the document leaves open here is log 22.
-/

namespace Sys2Proof.Machine.Asm

/-! ## Characters and splitting -/

/-- The characters taken as whitespace: space, tab, carriage return (a line feed ends the line). R113 and R111 say only
"whitespace": which characters it covers is the model's choice (DESIGN CHOICE, log 22). -/
def isSpace (c : Char) : Bool := c == ' ' || c == '\t' || c == '\r'

def isDigit (c : Char) : Bool := decide (48 ≤ c.toNat) && decide (c.toNat ≤ 57)

def isLetter (c : Char) : Bool :=
  (decide (65 ≤ c.toNat) && decide (c.toNat ≤ 90)) || (decide (97 ≤ c.toNat) && decide (c.toNat ≤ 122)) || c == '_'

/-- The characters of a word, for labels and for the whole-word replacement of R111 (log 22). -/
def isWordChar (c : Char) : Bool := isLetter c || isDigit c

/-- Lower case of a letter (the case normalisation of R110). -/
def lower (c : Char) : Char :=
  if decide (65 ≤ c.toNat) && decide (c.toNat ≤ 90) then Char.ofNat (c.toNat + 32) else c

/-- Split at the characters that satisfy `p`. -/
def splitAt (p : Char → Bool) : List Char → List (List Char)
  | [] => [[]]
  | c :: cs =>
    if p c then [] :: splitAt p cs
    else
      match splitAt p cs with
      | [] => [[c]]
      | l :: ls => (c :: l) :: ls

/-- Drop the blanks at the front. -/
def trimLeft (l : List Char) : List Char := l.dropWhile isSpace

/-- Drop the blanks at both ends. -/
def trim (l : List Char) : List Char := (trimLeft (trimLeft l).reverse).reverse

/-! ## The Program Loader (R111) -/

/-- (a) Strip an inline comment, from `;` or `#` on. -/
def stripComment (l : List Char) : List Char := l.takeWhile (fun c => c != ';' && c != '#')

/-- An assembler directive line starts with `.` or `@`. -/
def isDirective : List Char → Bool
  | [] => false
  | c :: _ => c == '.' || c == '@'

/-- (c) The rest of a line after its leading label `identifier:`, or the line itself if it has none. -/
def stripLabel (l : List Char) : List Char :=
  match l.takeWhile isWordChar, l.dropWhile isWordChar with
  | c :: _, d :: rest => if d == ':' && !isDigit c then trimLeft rest else l
  | _, _ => l

/-- (b) and (c): the line without its label; none for a blank, directive or pure label line. -/
def surviving (l : List Char) : Option (List Char) :=
  let t := trim (stripComment l)
  if t.isEmpty || isDirective t then none
  else
    let r := stripLabel t
    if r.isEmpty then none else some r

/-- The ABI names with their numbers (R22; G3, log 23), in lower case. -/
def abiNumber : List Char → Option Nat
  | ['z', 'e', 'r', 'o'] => some 0
  | ['r', 'a'] => some 1
  | ['s', 'p'] => some 2
  | ['g', 'p'] => some 3
  | ['t', 'p'] => some 4
  | ['f', 'p'] => some 8
  | ['t', '0'] => some 5
  | ['t', '1'] => some 6
  | ['t', '2'] => some 7
  | ['t', '3'] => some 28
  | ['t', '4'] => some 29
  | ['t', '5'] => some 30
  | ['t', '6'] => some 31
  | ['s', '0'] => some 8
  | ['s', '1'] => some 9
  | ['s', '2'] => some 18
  | ['s', '3'] => some 19
  | ['s', '4'] => some 20
  | ['s', '5'] => some 21
  | ['s', '6'] => some 22
  | ['s', '7'] => some 23
  | ['s', '8'] => some 24
  | ['s', '9'] => some 25
  | ['s', '1', '0'] => some 26
  | ['s', '1', '1'] => some 27
  | ['a', '0'] => some 10
  | ['a', '1'] => some 11
  | ['a', '2'] => some 12
  | ['a', '3'] => some 13
  | ['a', '4'] => some 14
  | ['a', '5'] => some 15
  | ['a', '6'] => some 16
  | ['a', '7'] => some 17
  | _ => none

def digit (n : Nat) : Char := Char.ofNat (48 + n)

/-- `xN` in decimal, N below 32. -/
def xName (n : Nat) : List Char := 'x' :: (if n < 10 then [digit n] else [digit (n / 10), digit (n % 10)])

/-- An ABI name becomes its `xN`, any other word stays. -/
def renameWord (w : List Char) : List Char :=
  match abiNumber (w.map lower) with
  | some n => xName n
  | none => w

/-- (d) Whole-word replacement over a line; `acc` is the current word, reversed. -/
def renameWords : List Char → List Char → List Char
  | acc, [] => renameWord acc.reverse
  | acc, c :: cs =>
    if isWordChar c then renameWords (c :: acc) cs else renameWord acc.reverse ++ c :: renameWords [] cs

/-- The lines that reach the parser, in order; line k has byte address 4k (R111 e). -/
def sourceLines (src : List Char) : List (List Char) :=
  ((splitAt (· == '\n') src).filterMap surviving).map (renameWords [])

/-! ## The Mnemonic Parser (R113) -/

/-- The parsed form of a line; an argument is none when the token is not a number. -/
structure Parsed where
  opcode : List Char
  args : List (Option Int)
  deriving DecidableEq, Repr

/-- A base-10 non-negative integer; none for an empty or malformed token. -/
def parseNat (l : List Char) : Option Nat :=
  if l.isEmpty || !l.all isDigit then none else some (l.foldl (fun n c => 10 * n + (c.toNat - 48)) 0)

/-- An operand token: `x` and a register index, or a possibly negative integer (R113). -/
def parseOperand : List Char → Option Int
  | 'x' :: t => (parseNat t).map (fun n => (n : Int))
  | '-' :: t => (parseNat t).map (fun n => -(n : Int))
  | t => (parseNat t).map (fun n => (n : Int))

/-- Tokens are separated by blanks, commas and parentheses (R113). -/
def tokens (l : List Char) : List (List Char) :=
  (splitAt (fun c => isSpace c || c == ',' || c == '(' || c == ')') l).filter (fun t => !t.isEmpty)

/-- The parsed form; none is the document's absent result. -/
def parseLine (l : List Char) : Option Parsed :=
  match tokens l with
  | [] => none
  | t :: ts => some ⟨t.map lower, ts.map parseOperand⟩

/-! ## Mnemonics -/

/-- The mnemonic's spelling; the sentinel is written out as `beq` (R115). -/
def spelling : Mnemonic → List Char
  | .halt => ['b', 'e', 'q']
  | .add => ['a', 'd', 'd']
  | .sub => ['s', 'u', 'b']
  | .sll => ['s', 'l', 'l']
  | .slt => ['s', 'l', 't']
  | .sltu => ['s', 'l', 't', 'u']
  | .xor => ['x', 'o', 'r']
  | .srl => ['s', 'r', 'l']
  | .sra => ['s', 'r', 'a']
  | .or => ['o', 'r']
  | .and => ['a', 'n', 'd']
  | .addi => ['a', 'd', 'd', 'i']
  | .slti => ['s', 'l', 't', 'i']
  | .sltiu => ['s', 'l', 't', 'i', 'u']
  | .xori => ['x', 'o', 'r', 'i']
  | .ori => ['o', 'r', 'i']
  | .andi => ['a', 'n', 'd', 'i']
  | .slli => ['s', 'l', 'l', 'i']
  | .srli => ['s', 'r', 'l', 'i']
  | .srai => ['s', 'r', 'a', 'i']
  | .lw => ['l', 'w']
  | .sw => ['s', 'w']
  | .beq => ['b', 'e', 'q']
  | .bne => ['b', 'n', 'e']
  | .blt => ['b', 'l', 't']
  | .bge => ['b', 'g', 'e']
  | .bltu => ['b', 'l', 't', 'u']
  | .bgeu => ['b', 'g', 'e', 'u']
  | .lui => ['l', 'u', 'i']
  | .auipc => ['a', 'u', 'i', 'p', 'c']
  | .jal => ['j', 'a', 'l']
  | .jalr => ['j', 'a', 'l', 'r']

def acceptedR : List Mnemonic := [.add, .sub, .sll, .slt, .sltu, .xor, .srl, .sra, .or, .and]
def acceptedI : List Mnemonic := [.addi, .slti, .sltiu, .xori, .ori, .andi, .slli, .srli, .srai]
def acceptedLSB : List Mnemonic := [.lw, .sw, .beq, .bne, .blt, .bge, .bltu, .bgeu]
def acceptedUJ : List Mnemonic := [.lui, .auipc, .jal, .jalr]

/-- The 31 accepted mnemonics (R2, R115). -/
def accepted : List Mnemonic := acceptedR ++ acceptedI ++ acceptedLSB ++ acceptedUJ

/-- The mnemonic of a lower-case token. -/
def mnemonicOf (token : List Char) : Option Mnemonic := accepted.find? (fun m => spelling m == token)

/-! ## The Binary Encoder (R116, R117) -/

/-- The operand order of `jalr` in the text, which the document does not give (R114, D24). -/
inductive JalrOrder where
  | rdRs1Imm | rdImmRs1
  deriving DecidableEq, Repr

/-- What the encoder makes of a line. -/
inductive Encoded where
  | word (w : Word)
  /-- An unsupported opcode: the caller substitutes NOP_WORD and reports the line (R116). -/
  | unsupported
  /-- Missing operands, or an operand that is no number or no register: the document does not say (R116, N14). -/
  | unspecified
  deriving DecidableEq, Repr

/-- A register operand. -/
def regOperand (v : Int) : Option RegIdx := if 0 ≤ v ∧ v ≤ 31 then some (BitVec.ofInt 5 v) else none

/-- The instruction of a mnemonic and its first operands in text order (R114), each value truncated to its field
(R117); none where the document does not say what is encoded. -/
def instrOf (order : JalrOrder) : Mnemonic → List Int → Option Instr
  | .add, a :: b :: c :: _ => return .add (← regOperand a) (← regOperand b) (← regOperand c)
  | .sub, a :: b :: c :: _ => return .sub (← regOperand a) (← regOperand b) (← regOperand c)
  | .sll, a :: b :: c :: _ => return .sll (← regOperand a) (← regOperand b) (← regOperand c)
  | .slt, a :: b :: c :: _ => return .slt (← regOperand a) (← regOperand b) (← regOperand c)
  | .sltu, a :: b :: c :: _ => return .sltu (← regOperand a) (← regOperand b) (← regOperand c)
  | .xor, a :: b :: c :: _ => return .xor (← regOperand a) (← regOperand b) (← regOperand c)
  | .srl, a :: b :: c :: _ => return .srl (← regOperand a) (← regOperand b) (← regOperand c)
  | .sra, a :: b :: c :: _ => return .sra (← regOperand a) (← regOperand b) (← regOperand c)
  | .or, a :: b :: c :: _ => return .or (← regOperand a) (← regOperand b) (← regOperand c)
  | .and, a :: b :: c :: _ => return .and (← regOperand a) (← regOperand b) (← regOperand c)
  | .addi, a :: b :: c :: _ => return .addi (← regOperand a) (← regOperand b) (BitVec.ofInt 12 c)
  | .slti, a :: b :: c :: _ => return .slti (← regOperand a) (← regOperand b) (BitVec.ofInt 12 c)
  | .sltiu, a :: b :: c :: _ => return .sltiu (← regOperand a) (← regOperand b) (BitVec.ofInt 12 c)
  | .xori, a :: b :: c :: _ => return .xori (← regOperand a) (← regOperand b) (BitVec.ofInt 12 c)
  | .ori, a :: b :: c :: _ => return .ori (← regOperand a) (← regOperand b) (BitVec.ofInt 12 c)
  | .andi, a :: b :: c :: _ => return .andi (← regOperand a) (← regOperand b) (BitVec.ofInt 12 c)
  | .slli, a :: b :: c :: _ => return .slli (← regOperand a) (← regOperand b) (BitVec.ofInt 5 c)
  | .srli, a :: b :: c :: _ => return .srli (← regOperand a) (← regOperand b) (BitVec.ofInt 5 c)
  | .srai, a :: b :: c :: _ => return .srai (← regOperand a) (← regOperand b) (BitVec.ofInt 5 c)
  | .lw, a :: b :: c :: _ => return .lw (← regOperand a) (BitVec.ofInt 12 b) (← regOperand c)
  | .sw, a :: b :: c :: _ => return .sw (← regOperand a) (BitVec.ofInt 12 b) (← regOperand c)
  | .beq, a :: b :: c :: _ => return .beq (← regOperand a) (← regOperand b) (BitVec.ofInt 13 c)
  | .bne, a :: b :: c :: _ => return .bne (← regOperand a) (← regOperand b) (BitVec.ofInt 13 c)
  | .blt, a :: b :: c :: _ => return .blt (← regOperand a) (← regOperand b) (BitVec.ofInt 13 c)
  | .bge, a :: b :: c :: _ => return .bge (← regOperand a) (← regOperand b) (BitVec.ofInt 13 c)
  | .bltu, a :: b :: c :: _ => return .bltu (← regOperand a) (← regOperand b) (BitVec.ofInt 13 c)
  | .bgeu, a :: b :: c :: _ => return .bgeu (← regOperand a) (← regOperand b) (BitVec.ofInt 13 c)
  | .lui, a :: b :: _ => return .lui (← regOperand a) (BitVec.ofInt 20 b)
  | .auipc, a :: b :: _ => return .auipc (← regOperand a) (BitVec.ofInt 20 b)
  | .jal, a :: b :: _ => return .jal (← regOperand a) (BitVec.ofInt 21 b)
  | .jalr, a :: b :: c :: _ =>
    match order with
    | .rdRs1Imm => return .jalr (← regOperand a) (← regOperand b) (BitVec.ofInt 12 c)
    | .rdImmRs1 => return .jalr (← regOperand a) (← regOperand c) (BitVec.ofInt 12 b)
  | _, _ => none

/-- A 5-bit field as a number of the text. -/
def regInt (r : BitVec 5) : Int := (r.toNat : Int)

/-- The operands of an instruction in text order, as the numbers the text holds (R101, R114). -/
def operandList (order : JalrOrder) : Instr → List Int
  | .halt => [0, 0, 0]
  | .add a b c | .sub a b c | .sll a b c | .slt a b c | .sltu a b c => [regInt a, regInt b, regInt c]
  | .xor a b c | .srl a b c | .sra a b c | .or a b c | .and a b c => [regInt a, regInt b, regInt c]
  | .addi a b imm | .slti a b imm | .sltiu a b imm => [regInt a, regInt b, imm.toInt]
  | .xori a b imm | .ori a b imm | .andi a b imm => [regInt a, regInt b, imm.toInt]
  | .slli a b sh | .srli a b sh | .srai a b sh => [regInt a, regInt b, regInt sh]
  | .lw a imm b | .sw a imm b => [regInt a, imm.toInt, regInt b]
  | .beq a b imm | .bne a b imm | .blt a b imm => [regInt a, regInt b, imm.toInt]
  | .bge a b imm | .bltu a b imm | .bgeu a b imm => [regInt a, regInt b, imm.toInt]
  | .lui a imm20 | .auipc a imm20 => [regInt a, (imm20.toNat : Int)]
  | .jal a imm => [regInt a, imm.toInt]
  | .jalr a b imm =>
    match order with
    | .rdRs1Imm => [regInt a, regInt b, imm.toInt]
    | .rdImmRs1 => [regInt a, imm.toInt, regInt b]

/-- The parsed line of an instruction (R113, R114). -/
def parsedOf (order : JalrOrder) (i : Instr) : Parsed := ⟨spelling i.mnemonic, (operandList order i).map some⟩

/-- The arguments as numbers, none if one of them is not a number. -/
def numbers : List (Option Int) → Option (List Int)
  | [] => some []
  | none :: _ => none
  | some v :: rest => (numbers rest).map (v :: ·)

/-- The encoder on a parsed line (R116). Bit 0 of a displacement is dropped by the format itself (R117). -/
def encodeParsed (order : JalrOrder) (p : Parsed) : Encoded :=
  match mnemonicOf p.opcode with
  | none => .unsupported
  | some m =>
    match (numbers (p.args.take 3)).bind (instrOf order m) with
    | none => .unspecified
    | some i => .word (encode i)

/-- The encoder's whole output: one word a line, and the 1-based numbers of the lines it could not encode (R116). -/
structure Assembled where
  words : List Word
  errors : List Nat
  deriving DecidableEq, Repr

/-- The encoder on one source line; a line without a parsed form is no opcode it supports. -/
def encodeLine (order : JalrOrder) (l : List Char) : Encoded :=
  match parseLine l with
  | none => .unsupported
  | some p => encodeParsed order p

/-- Encode the lines from line number `n` on; none where the document does not say what is encoded (log 22). -/
def encodeLines (order : JalrOrder) (nop : Word) : Nat → List (List Char) → Option Assembled
  | _, [] => some ⟨[], []⟩
  | n, l :: ls =>
    match encodeLine order l with
    | .word w => (encodeLines order nop (n + 1) ls).map (fun a => ⟨w :: a.words, a.errors⟩)
    | .unsupported => (encodeLines order nop (n + 1) ls).map (fun a => ⟨nop :: a.words, n :: a.errors⟩)
    | .unspecified => none

/-- From source text to the words of the program (R111, R116, R271). -/
def assemble (order : JalrOrder) (nop : Word) (src : List Char) : Option Assembled :=
  encodeLines order nop 1 (sourceLines src)

/-- The host operation `load` from source text (R271); none where the program is refused (log 18, log 22). -/
def loadText (order : JalrOrder) (nop : Word) (src : List Char) (s : State) : Option State :=
  (assemble order nop src).bind (fun a => (Program.ofWords? a.words).map s.load)

/-! ## The export artifact (R119) -/

/-- 32 binary digits, bit 31 leftmost (R119, D8). -/
def bitString (w : Word) : List Char := (List.range 32).map (fun i => if w.getLsbD (31 - i) then '1' else '0')

/-- The newline-joined binary strings, one per instruction (R119). -/
def exportText (ws : List Word) : List Char := ((ws.map bitString).intersperse ['\n']).flatten

/-! ## Operand validation, text level only (R136, R243, R245, R248) -/

/-- The positions among the first three operands that hold a register index (R114), for the implemented opcodes. -/
def registerPositions : Mnemonic → List Nat
  | .lw | .sw => [0, 2]
  | .addi | .slti | .sltiu | .xori | .ori | .andi | .slli | .srli | .srai => [0, 1]
  | .beq | .bne | .blt | .bge | .bltu | .bgeu => [0, 1]
  | .add | .sub | .sll | .slt | .sltu | .xor | .srl | .sra | .or | .and => [0, 1, 2]
  | .halt | .lui | .auipc | .jal | .jalr => []

/-- The opcodes the document's engine has no handler for (R230, R118 f). -/
def hasHandler : Mnemonic → Bool
  | .halt | .lui | .auipc | .jal | .jalr => false
  | .add | .sub | .sll | .slt | .sltu | .xor | .srl | .sra | .or | .and => true
  | .addi | .slti | .sltiu | .xori | .ori | .andi | .slli | .srli | .srai => true
  | .lw | .sw | .beq | .bne | .blt | .bge | .bltu | .bgeu => true

/-- Every operand the handler reads is a number, and a register index where one is due (R243; log 22). -/
def operandsValid (m : Mnemonic) (args : List (Option Int)) : Bool :=
  (args.take 3).all Option.isSome &&
    (registerPositions m).all (fun k =>
      match args[k]? with
      | some (some v) => decide (0 ≤ v) && decide (v ≤ 31)
      | _ => false)

/-- The diagnostic the text engine raises before it uses an operand: the opcode, then the operand count, then the
register indices (R248, D27); none if the line passes. -/
def validate (p : Parsed) : Option DiagKind :=
  match mnemonicOf p.opcode with
  | none => some .unsupportedOpcode
  | some m =>
    if !hasHandler m then some .unsupportedOpcode
    else if p.args.length < 3 then some .insufficientOperands
    else if !operandsValid m p.args then some .invalidRegisterIndex
    else none

end Sys2Proof.Machine.Asm
end

