-- ==== Sys2Proof/Safety.lean ====
section
/-!
DEFINITION. What claims are stated in: the invariant of the core, when a run counts as clean, and the part of the
state that a program can see (10_state.md R26, R28; 60_exceptions.md R241, R250).
-/

namespace Sys2Proof.Machine

/-- The data memory is in canonical form and holds nothing outside its N words (R52; log 1). -/
def State.memOk (s : State) : Bool := s.mem.wf && s.mem.below (4 * s.memWords)

/-- "programCounter always a multiple of 4" (R26). -/
def State.pcAligned (s : State) : Bool := alignedTarget s.pc

/-- What the phase between two steps says of the rest of the state (R28, R139, R250). -/
def State.phaseOk (s : State) : Bool :=
  match s.phase with
  | .ready => s.pc == 0#32 && s.diag.isEmpty && s.faultRecord.isNone
  | .executing => decide (instrIndex s.pc < s.progLen) && s.faultRecord.isNone
  | .halted => s.fetch == some Config.haltWord && s.faultRecord.isNone
  | .finished => decide (s.progLen ≤ instrIndex s.pc) && s.faultRecord.isNone
  | .faulted =>
    match s.faultRecord with
    | none => false
    | some r => r.pc == s.pc && !alignedTarget r.target

/-- The invariant of the core: it holds at reset and every step keeps it. -/
abbrev State.Inv (s : State) : Prop := s.memOk = true ∧ s.pcAligned = true ∧ s.phaseOk = true

/-- A run that claims may go through: no diagnostic and no fault (R241, R250). -/
def State.clean (s : State) : Bool := s.diag.isEmpty && s.phase != .faulted

/-! ## What a step did, in the terms of the claims -/

/-- The phase after going on to `pc` (R139): finished at or past the end of the program, else executing. -/
def WentOn (s t : State) (pc : Word) : Prop :=
  t.pc = pc ∧ t.phase = if s.progLen ≤ pc.toNat / 4 then Phase.finished else Phase.executing

/-- Every register reads as before. -/
def SameRegs (s t : State) : Prop := ∀ q : RegIdx, t.reg q = s.reg q

/-- Every byte of the data memory reads as before. -/
def SameBytes (s t : State) : Prop := ∀ a : Nat, t.mem.readByte a = s.mem.readByte a

/-- The program and the parameters are as before (R33, R36). -/
def SameProgram (s t : State) : Prop := t.prog = s.prog ∧ t.memSize = s.memSize ∧ t.ujExec = s.ujExec

/-- No diagnostic, no fault, the run flag, the program and the parameters as before. -/
def NoEvent (s t : State) : Prop :=
  t.diag = s.diag ∧ t.running = s.running ∧ t.faultRecord = s.faultRecord ∧ SameProgram s t

/-- The instruction wrote `v` to `rd` (to nothing if `rd` is x0) and to nothing else, and went on to `pc`. -/
structure WroteReg (s t : State) (rd : RegIdx) (v pc : Word) : Prop where
  dest : rd ≠ 0#5 → t.reg rd = v
  others : ∀ q : RegIdx, q ≠ rd → t.reg q = s.reg q
  zero : rd = 0#5 → SameRegs s t
  mem : SameBytes s t
  went : WentOn s t pc
  rest : NoEvent s t

/-- The instruction wrote no register and no memory, and went on to `pc`. -/
structure WroteNothing (s t : State) (pc : Word) : Prop where
  regs : SameRegs s t
  mem : SameBytes s t
  went : WentOn s t pc
  rest : NoEvent s t

/-- The instruction stored the word `v` at word index `idx` and wrote nothing else, and went on to `pc`. -/
structure StoredWord (s t : State) (idx : Nat) (v pc : Word) : Prop where
  regs : SameRegs s t
  word : t.mem.readWord idx = v
  outside : ∀ a : Nat, a < 4 * idx ∨ 4 * idx + 4 ≤ a → t.mem.readByte a = s.mem.readByte a
  went : WentOn s t pc
  rest : NoEvent s t

/-- `t` is `s` but for the observations and the model's draw counter, of which nothing is said (R144, U11, D17;
log 5). -/
def SameButObservations (s t : State) : Prop :=
  t = { s with signal := t.signal, lastReg := t.lastReg, lastMem := t.lastMem, freeCount := t.freeCount }

/-- A recovered error of kind `k` (R241): one diagnostic, nothing written, on to the next instruction. -/
structure Raised (s t : State) (k : DiagKind) : Prop where
  regs : SameRegs s t
  mem : SameBytes s t
  diag : t.diag = s.diag ++ [Diag.mk k s.pc]
  went : WentOn s t (s.pc + 4#32)
  running : t.running = s.running
  record : t.faultRecord = s.faultRecord
  program : SameProgram s t

/-- The fault MisalignedTarget (R250, R251): nothing written, phase faulted, the run flag cleared. -/
structure FaultedAt (s t : State) (target : Word) : Prop where
  regs : SameRegs s t
  mem : SameBytes s t
  pc : t.pc = s.pc
  phase : t.phase = .faulted
  running : t.running = false
  record : t.faultRecord = some (FaultRecord.mk s.pc target)
  diag : t.diag = s.diag
  program : SameProgram s t

/-- The destination register of an instruction (R23). -/
def destination : Instr → Option RegIdx
  | .add rd _ _ => some rd
  | .sub rd _ _ => some rd
  | .sll rd _ _ => some rd
  | .slt rd _ _ => some rd
  | .sltu rd _ _ => some rd
  | .xor rd _ _ => some rd
  | .srl rd _ _ => some rd
  | .sra rd _ _ => some rd
  | .or rd _ _ => some rd
  | .and rd _ _ => some rd
  | .addi rd _ _ => some rd
  | .slti rd _ _ => some rd
  | .sltiu rd _ _ => some rd
  | .xori rd _ _ => some rd
  | .ori rd _ _ => some rd
  | .andi rd _ _ => some rd
  | .slli rd _ _ => some rd
  | .srli rd _ _ => some rd
  | .srai rd _ _ => some rd
  | .lw rd _ _ => some rd
  | .lui rd _ => some rd
  | .auipc rd _ => some rd
  | .jal rd _ => some rd
  | .jalr rd _ _ => some rd
  | .halt => none
  | .sw _ _ _ => none
  | .beq _ _ _ => none
  | .bne _ _ _ => none
  | .blt _ _ _ => none
  | .bge _ _ _ => none
  | .bltu _ _ _ => none
  | .bgeu _ _ _ => none

/-- Every word that matches a row of the opcode map decodes to the row's instruction with the word's operands. -/
def RowDecodes (mask pattern : Word) (read : Word → Instr) : Prop :=
  ∀ w : Word, w &&& mask = pattern → decode w = .ok (read w)

/-- The instruction answers a next state, and the next state satisfies `post`. -/
def Completes (i : Instr) (s : State) (post : State → Prop) : Prop := ∃ t, exec i s = .next t ∧ post t

/-- A step answers a next state, and the next state satisfies `post`. -/
def StepCompletes (s : State) (post : State → Prop) : Prop := ∃ t, step s = .next t ∧ post t

/-- The rule of a branch with condition `cond` (R210, R211): taken to an aligned target, taken to a misaligned one,
not taken. -/
def BranchRule (mk : RegIdx → RegIdx → BitVec 13 → Instr) (cond : Word → Word → Prop) : Prop :=
  ∀ (rs1 rs2 : RegIdx) (imm : BitVec 13) (s : State),
    (cond (s.reg rs1) (s.reg rs2) → (s.pc + imm.signExtend 32).toNat % 4 = 0 →
      Completes (mk rs1 rs2 imm) s (fun t => WroteNothing s t (s.pc + imm.signExtend 32))) ∧
    (cond (s.reg rs1) (s.reg rs2) → (s.pc + imm.signExtend 32).toNat % 4 ≠ 0 →
      Completes (mk rs1 rs2 imm) s (fun t => FaultedAt s t (s.pc + imm.signExtend 32))) ∧
    (¬ cond (s.reg rs1) (s.reg rs2) →
      Completes (mk rs1 rs2 imm) s (fun t => WroteNothing s t (s.pc + 4#32)))

/-! ## The snapshot of a completed instruction (R141 to R143, R146; the table and the names are D16's) -/

/-- What a completed register-writing instruction lets the host observe; for x0 the index is free (U12, log 6). -/
def ObservedWrite (t : State) (rd : RegIdx) (sig : Signal) : Prop :=
  t.signal = some sig ∧ (rd ≠ 0#5 → t.lastReg = some rd) ∧ t.lastMem = none

/-- Class R with operation `op` and result `f`. -/
def SnapshotR (mk : RegIdx → RegIdx → RegIdx → Instr) (op : AluOp) (f : Word → Word → Word) : Prop :=
  ∀ (rd rs1 rs2 : RegIdx) (s : State), Completes (mk rd rs1 rs2) s (fun t =>
    ObservedWrite t rd ⟨.r, ⟨true, false, false, false, false⟩, .op op, some (f (s.reg rs1) (s.reg rs2)), none⟩)

/-- Class I with a field of `n` bits, extended by `ext`. -/
def SnapshotI {n : Nat} (ext : BitVec n → Word) (mk : RegIdx → RegIdx → BitVec n → Instr) (op : AluOp)
    (f : Word → Word → Word) : Prop :=
  ∀ (rd rs1 : RegIdx) (imm : BitVec n) (s : State), Completes (mk rd rs1 imm) s (fun t =>
    ObservedWrite t rd ⟨.i, ⟨true, true, false, false, false⟩, .op op, some (f (s.reg rs1) (ext imm)), some (ext imm)⟩)

/-- Class B with comparison `c`, whose condition is `cond`: not taken, or taken to an aligned target. -/
def SnapshotB (mk : RegIdx → RegIdx → BitVec 13 → Instr) (c : Comparator) (cond : Word → Word → Prop) : Prop :=
  ∀ (rs1 rs2 : RegIdx) (imm : BitVec 13) (s : State),
    (cond (s.reg rs1) (s.reg rs2) → (s.pc + imm.signExtend 32).toNat % 4 = 0 →
      Completes (mk rs1 rs2 imm) s (fun t => t.lastReg = none ∧ t.lastMem = none ∧
        t.signal = some ⟨.b, ⟨false, false, false, false, true⟩, .cmp c, none, some (imm.signExtend 32)⟩)) ∧
    (¬ cond (s.reg rs1) (s.reg rs2) →
      Completes (mk rs1 rs2 imm) s (fun t => t.lastReg = none ∧ t.lastMem = none ∧
        t.signal = some ⟨.b, ⟨false, false, false, false, false⟩, .cmp c, none, some (imm.signExtend 32)⟩))

/-- The decoded instruction at the pc, none past the program or where the word is unrecognised. -/
def State.current (s : State) : Option Instr :=
  match s.fetch with
  | none => none
  | some w =>
    match decode w with
    | .ok i => some i
    | .error _ => none

/-- The next step stores to the data word of index `idx`. -/
def StoresTo (s : State) (idx : Nat) : Prop :=
  s.phase ≠ .faulted ∧ ∃ rs2 imm rs1, s.current = some (.sw rs2 imm rs1) ∧
    (s.reg rs1 + imm.signExtend 32).toNat < 4 * s.memSize.words ∧ (s.reg rs1 + imm.signExtend 32).toNat / 4 = idx

/-- The same architectural state: registers, pc, data memory, and the program and parameters (R131, R146). -/
abbrev SameArch (s t : State) : Prop :=
  s.x = t.x ∧ s.pc = t.pc ∧ s.mem = t.mem ∧ s.prog = t.prog ∧ s.memSize = t.memSize ∧ s.ujExec = t.ujExec

end Sys2Proof.Machine
end

