-- ==== Sys2Proof/Certificates/Slice0/Obligations.lean ====
section
/-!
DEFINITION. The statements for the provers. Each says which rule of the spec it formalises, or what it rests on.
-/

open Sys2Proof Sys2Proof.Machine

/-! ## The instructions, family by family: encoding, operation, and everything that stays as it was -/

/-- `add sub xor or and` (R163 to R167): the words of the row, the operation, the frame. The field positions are D9's. -/
def Obligations.RegisterAddSubLogic : Prop :=
  RowDecodes 0xFE00707F#32 0x00000033#32 (fun w => .add (w.extractLsb' 7 5) (w.extractLsb' 15 5) (w.extractLsb' 20 5)) ∧
  RowDecodes 0xFE00707F#32 0x40000033#32 (fun w => .sub (w.extractLsb' 7 5) (w.extractLsb' 15 5) (w.extractLsb' 20 5)) ∧
  RowDecodes 0xFE00707F#32 0x00004033#32 (fun w => .xor (w.extractLsb' 7 5) (w.extractLsb' 15 5) (w.extractLsb' 20 5)) ∧
  RowDecodes 0xFE00707F#32 0x00006033#32 (fun w => .or (w.extractLsb' 7 5) (w.extractLsb' 15 5) (w.extractLsb' 20 5)) ∧
  RowDecodes 0xFE00707F#32 0x00007033#32 (fun w => .and (w.extractLsb' 7 5) (w.extractLsb' 15 5) (w.extractLsb' 20 5)) ∧
  ∀ (rd rs1 rs2 : RegIdx) (s : State),
    Completes (.add rd rs1 rs2) s (fun t => WroteReg s t rd (s.reg rs1 + s.reg rs2) (s.pc + 4#32)) ∧
    Completes (.sub rd rs1 rs2) s (fun t => WroteReg s t rd (s.reg rs1 - s.reg rs2) (s.pc + 4#32)) ∧
    Completes (.xor rd rs1 rs2) s (fun t => WroteReg s t rd (s.reg rs1 ^^^ s.reg rs2) (s.pc + 4#32)) ∧
    Completes (.or rd rs1 rs2) s (fun t => WroteReg s t rd (s.reg rs1 ||| s.reg rs2) (s.pc + 4#32)) ∧
    Completes (.and rd rs1 rs2) s (fun t => WroteReg s t rd (s.reg rs1 &&& s.reg rs2) (s.pc + 4#32))

/-- `sll srl sra` (R168 to R170): the amount is the low five bits of the second source. The field positions are D9's. -/
def Obligations.RegisterShifts : Prop :=
  RowDecodes 0xFE00707F#32 0x00001033#32 (fun w => .sll (w.extractLsb' 7 5) (w.extractLsb' 15 5) (w.extractLsb' 20 5)) ∧
  RowDecodes 0xFE00707F#32 0x00005033#32 (fun w => .srl (w.extractLsb' 7 5) (w.extractLsb' 15 5) (w.extractLsb' 20 5)) ∧
  RowDecodes 0xFE00707F#32 0x40005033#32 (fun w => .sra (w.extractLsb' 7 5) (w.extractLsb' 15 5) (w.extractLsb' 20 5)) ∧
  ∀ (rd rs1 rs2 : RegIdx) (s : State),
    Completes (.sll rd rs1 rs2) s (fun t =>
      WroteReg s t rd (s.reg rs1 <<< ((s.reg rs2).toNat % 32)) (s.pc + 4#32)) ∧
    Completes (.srl rd rs1 rs2) s (fun t =>
      WroteReg s t rd (s.reg rs1 >>> ((s.reg rs2).toNat % 32)) (s.pc + 4#32)) ∧
    Completes (.sra rd rs1 rs2) s (fun t =>
      WroteReg s t rd ((s.reg rs1).sshiftRight ((s.reg rs2).toNat % 32)) (s.pc + 4#32))

/-- `slt sltu` (R171, R172). The field positions are D9's, the words 1 and 0 are G6's. -/
def Obligations.RegisterCompares : Prop :=
  RowDecodes 0xFE00707F#32 0x00002033#32 (fun w => .slt (w.extractLsb' 7 5) (w.extractLsb' 15 5) (w.extractLsb' 20 5)) ∧
  RowDecodes 0xFE00707F#32 0x00003033#32 (fun w => .sltu (w.extractLsb' 7 5) (w.extractLsb' 15 5) (w.extractLsb' 20 5)) ∧
  ∀ (rd rs1 rs2 : RegIdx) (s : State),
    Completes (.slt rd rs1 rs2) s (fun t =>
      WroteReg s t rd (if (s.reg rs1).toInt < (s.reg rs2).toInt then 1#32 else 0#32) (s.pc + 4#32)) ∧
    Completes (.sltu rd rs1 rs2) s (fun t =>
      WroteReg s t rd (if (s.reg rs1).toNat < (s.reg rs2).toNat then 1#32 else 0#32) (s.pc + 4#32))

/-- `addi xori ori andi` (R181 to R184): the immediate is sign-extended. The field positions are D9's. -/
def Obligations.ImmediateAddLogic : Prop :=
  RowDecodes 0x0000707F#32 0x00000013#32 (fun w => .addi (w.extractLsb' 7 5) (w.extractLsb' 15 5) (w.extractLsb' 20 12)) ∧
  RowDecodes 0x0000707F#32 0x00004013#32 (fun w => .xori (w.extractLsb' 7 5) (w.extractLsb' 15 5) (w.extractLsb' 20 12)) ∧
  RowDecodes 0x0000707F#32 0x00006013#32 (fun w => .ori (w.extractLsb' 7 5) (w.extractLsb' 15 5) (w.extractLsb' 20 12)) ∧
  RowDecodes 0x0000707F#32 0x00007013#32 (fun w => .andi (w.extractLsb' 7 5) (w.extractLsb' 15 5) (w.extractLsb' 20 12)) ∧
  ∀ (rd rs1 : RegIdx) (imm : BitVec 12) (s : State),
    Completes (.addi rd rs1 imm) s (fun t => WroteReg s t rd (s.reg rs1 + imm.signExtend 32) (s.pc + 4#32)) ∧
    Completes (.xori rd rs1 imm) s (fun t => WroteReg s t rd (s.reg rs1 ^^^ imm.signExtend 32) (s.pc + 4#32)) ∧
    Completes (.ori rd rs1 imm) s (fun t => WroteReg s t rd (s.reg rs1 ||| imm.signExtend 32) (s.pc + 4#32)) ∧
    Completes (.andi rd rs1 imm) s (fun t => WroteReg s t rd (s.reg rs1 &&& imm.signExtend 32) (s.pc + 4#32))

/-- `slti sltiu` (R185, R186): `sltiu` compares with the sign-extended immediate read as unsigned. The field positions
are D9's, the words 1 and 0 are G6's. -/
def Obligations.ImmediateCompares : Prop :=
  RowDecodes 0x0000707F#32 0x00002013#32 (fun w => .slti (w.extractLsb' 7 5) (w.extractLsb' 15 5) (w.extractLsb' 20 12)) ∧
  RowDecodes 0x0000707F#32 0x00003013#32 (fun w => .sltiu (w.extractLsb' 7 5) (w.extractLsb' 15 5) (w.extractLsb' 20 12)) ∧
  ∀ (rd rs1 : RegIdx) (imm : BitVec 12) (s : State),
    Completes (.slti rd rs1 imm) s (fun t =>
      WroteReg s t rd (if (s.reg rs1).toInt < imm.toInt then 1#32 else 0#32) (s.pc + 4#32)) ∧
    Completes (.sltiu rd rs1 imm) s (fun t =>
      WroteReg s t rd (if (s.reg rs1).toNat < (imm.signExtend 32).toNat then 1#32 else 0#32) (s.pc + 4#32))

/-- `slli srli srai` (R187 to R189): the amount is the 5-bit field. The field positions are D9's. -/
def Obligations.ImmediateShifts : Prop :=
  RowDecodes 0xFE00707F#32 0x00001013#32 (fun w => .slli (w.extractLsb' 7 5) (w.extractLsb' 15 5) (w.extractLsb' 20 5)) ∧
  RowDecodes 0xFE00707F#32 0x00005013#32 (fun w => .srli (w.extractLsb' 7 5) (w.extractLsb' 15 5) (w.extractLsb' 20 5)) ∧
  RowDecodes 0xFE00707F#32 0x40005013#32 (fun w => .srai (w.extractLsb' 7 5) (w.extractLsb' 15 5) (w.extractLsb' 20 5)) ∧
  ∀ (rd rs1 : RegIdx) (shamt : BitVec 5) (s : State),
    Completes (.slli rd rs1 shamt) s (fun t => WroteReg s t rd (s.reg rs1 <<< shamt.toNat) (s.pc + 4#32)) ∧
    Completes (.srli rd rs1 shamt) s (fun t => WroteReg s t rd (s.reg rs1 >>> shamt.toNat) (s.pc + 4#32)) ∧
    Completes (.srai rd rs1 shamt) s (fun t => WroteReg s t rd ((s.reg rs1).sshiftRight shamt.toNat) (s.pc + 4#32))

/-- `lw` (R201): admitted, the word at floor(ea / 4) goes to `rd`; rejected, MemoryOutOfBounds and `rd` unchanged, also
when `rd` is x0. The field positions are D9's. -/
def Obligations.LoadWord : Prop :=
  RowDecodes 0x0000707F#32 0x00002003#32 (fun w => .lw (w.extractLsb' 7 5) (w.extractLsb' 20 12) (w.extractLsb' 15 5)) ∧
  ∀ (rd rs1 : RegIdx) (imm : BitVec 12) (s : State),
    ((s.reg rs1 + imm.signExtend 32).toNat < 4 * s.memSize.words →
      Completes (.lw rd imm rs1) s (fun t =>
        WroteReg s t rd (s.mem.readWord ((s.reg rs1 + imm.signExtend 32).toNat / 4)) (s.pc + 4#32))) ∧
    (4 * s.memSize.words ≤ (s.reg rs1 + imm.signExtend 32).toNat →
      Completes (.lw rd imm rs1) s (fun t => Raised s t .memoryOutOfBounds))

/-- `sw` (R202): admitted, the whole word at floor(ea / 4) is replaced and no other byte changes; rejected,
MemoryOutOfBounds and no byte changes. The field positions are D9's; the canonical memory is the model's (log 1). -/
def Obligations.StoreWord : Prop :=
  RowDecodes 0x0000707F#32 0x00002023#32 (fun w => .sw (w.extractLsb' 20 5) (immSOf w) (w.extractLsb' 15 5)) ∧
  ∀ (rs2 rs1 : RegIdx) (imm : BitVec 12) (s : State), s.mem.wf = true →
    ((s.reg rs1 + imm.signExtend 32).toNat < 4 * s.memSize.words →
      Completes (.sw rs2 imm rs1) s (fun t =>
        StoredWord s t ((s.reg rs1 + imm.signExtend 32).toNat / 4) (s.reg rs2) (s.pc + 4#32))) ∧
    (4 * s.memSize.words ≤ (s.reg rs1 + imm.signExtend 32).toNat →
      Completes (.sw rs2 imm rs1) s (fun t => Raised s t .memoryOutOfBounds))

/-- `beq bne` (R210 to R213). The word 0x00000063 is not `beq`. The field positions are D9's, the fault is D13's. -/
def Obligations.EqualityBranches : Prop :=
  (∀ w : Word, w &&& 0x0000707F#32 = 0x00000063#32 → w ≠ 0x00000063#32 →
    decode w = .ok (.beq (w.extractLsb' 15 5) (w.extractLsb' 20 5) (immBOf w))) ∧
  RowDecodes 0x0000707F#32 0x00001063#32 (fun w => .bne (w.extractLsb' 15 5) (w.extractLsb' 20 5) (immBOf w)) ∧
  BranchRule .beq (fun a b => a = b) ∧
  BranchRule .bne (fun a b => a ≠ b)

/-- `blt bge bltu bgeu` (R210, R211, R214 to R217). The field positions are D9's, the side of the comparison and
`greater or equal` are G7's, the fault is D13's. -/
def Obligations.OrderedBranches : Prop :=
  RowDecodes 0x0000707F#32 0x00004063#32 (fun w => .blt (w.extractLsb' 15 5) (w.extractLsb' 20 5) (immBOf w)) ∧
  RowDecodes 0x0000707F#32 0x00005063#32 (fun w => .bge (w.extractLsb' 15 5) (w.extractLsb' 20 5) (immBOf w)) ∧
  RowDecodes 0x0000707F#32 0x00006063#32 (fun w => .bltu (w.extractLsb' 15 5) (w.extractLsb' 20 5) (immBOf w)) ∧
  RowDecodes 0x0000707F#32 0x00007063#32 (fun w => .bgeu (w.extractLsb' 15 5) (w.extractLsb' 20 5) (immBOf w)) ∧
  BranchRule .blt (fun a b => a.toInt < b.toInt) ∧
  BranchRule .bge (fun a b => b.toInt ≤ a.toInt) ∧
  BranchRule .bltu (fun a b => a.toNat < b.toNat) ∧
  BranchRule .bgeu (fun a b => b.toNat ≤ a.toNat)

/-- HALT (R102, R134, R218): the one word, its effect, and that a further step has the same outcome (D14). Of the
observations nothing is said (R144, D17; log 5). -/
def Obligations.HaltSentinel : Prop :=
  (∀ w : Word, decode w = .ok .halt ↔ w = 0x00000063#32) ∧
  (∀ s : State, Completes .halt s (fun t =>
    SameRegs s t ∧ SameBytes s t ∧ t.pc = s.pc ∧ t.phase = .halted ∧ t.running = false ∧ t.diag = s.diag ∧
    t.faultRecord = s.faultRecord ∧ SameProgram s t)) ∧
  (∀ s : State, s.phase ≠ .faulted → s.fetch = some 0x00000063#32 →
    StepCompletes s (fun t => exec .halt s = .next t ∧ StepCompletes t (fun u => SameButObservations t u)))

/-- `lui auipc` (R230 to R232) under both values of UJ_EXEC (D12). The rv32i semantics are G5's, the positions D9's. -/
def Obligations.UpperImmediates : Prop :=
  RowDecodes 0x0000007F#32 0x00000037#32 (fun w => .lui (w.extractLsb' 7 5) (w.extractLsb' 12 20)) ∧
  RowDecodes 0x0000007F#32 0x00000017#32 (fun w => .auipc (w.extractLsb' 7 5) (w.extractLsb' 12 20)) ∧
  ∀ (rd : RegIdx) (imm20 : BitVec 20) (s : State),
    (s.ujExec = .skip →
      Completes (.lui rd imm20) s (fun t => Raised s t .unsupportedOpcode) ∧
      Completes (.auipc rd imm20) s (fun t => Raised s t .unsupportedOpcode)) ∧
    (s.ujExec = .rv32i →
      Completes (.lui rd imm20) s (fun t => WroteReg s t rd (imm20 ++ 0#12) (s.pc + 4#32)) ∧
      Completes (.auipc rd imm20) s (fun t => WroteReg s t rd (s.pc + (imm20 ++ 0#12)) (s.pc + 4#32)))

/-- `jal jalr` (R230, R233 to R235) under both values of UJ_EXEC (D12), a misaligned target included (D13). The rv32i
semantics are G5's, the positions D9's. -/
def Obligations.Jumps : Prop :=
  RowDecodes 0x0000007F#32 0x0000006F#32 (fun w => .jal (w.extractLsb' 7 5) (immJOf w)) ∧
  RowDecodes 0x0000707F#32 0x00000067#32 (fun w => .jalr (w.extractLsb' 7 5) (w.extractLsb' 15 5) (w.extractLsb' 20 12)) ∧
  (∀ (rd : RegIdx) (imm : BitVec 21) (s : State),
    (s.ujExec = .skip → Completes (.jal rd imm) s (fun t => Raised s t .unsupportedOpcode)) ∧
    (s.ujExec = .rv32i → (s.pc + imm.signExtend 32).toNat % 4 = 0 →
      Completes (.jal rd imm) s (fun t => WroteReg s t rd (s.pc + 4#32) (s.pc + imm.signExtend 32))) ∧
    (s.ujExec = .rv32i → (s.pc + imm.signExtend 32).toNat % 4 ≠ 0 →
      Completes (.jal rd imm) s (fun t => FaultedAt s t (s.pc + imm.signExtend 32)))) ∧
  (∀ (rd rs1 : RegIdx) (imm : BitVec 12) (s : State),
    (s.ujExec = .skip → Completes (.jalr rd rs1 imm) s (fun t => Raised s t .unsupportedOpcode)) ∧
    (s.ujExec = .rv32i → (s.reg rs1 + imm.signExtend 32).getLsbD 1 = false →
      Completes (.jalr rd rs1 imm) s (fun t =>
        WroteReg s t rd (s.pc + 4#32) ((s.reg rs1 + imm.signExtend 32) &&& 0xFFFFFFFE#32))) ∧
    (s.ujExec = .rv32i → (s.reg rs1 + imm.signExtend 32).getLsbD 1 = true →
      Completes (.jalr rd rs1 imm) s (fun t => FaultedAt s t ((s.reg rs1 + imm.signExtend 32) &&& 0xFFFFFFFE#32))))

/-! ## What the shared operations compute -/

/-- The ALU as exact integer arithmetic (R160); the words 1 and 0 of the comparisons are G6's. -/
def Obligations.AluIsExactArithmeticNarrowed : Prop :=
  ∀ a b : Word,
    alu .add a b = BitVec.ofInt 32 (a.toInt + b.toInt) ∧
    alu .sub a b = BitVec.ofInt 32 (a.toInt - b.toInt) ∧
    (∀ i : Nat, i < 32 →
      (alu .and a b).getLsbD i = (a.getLsbD i && b.getLsbD i) ∧
      (alu .or a b).getLsbD i = (a.getLsbD i || b.getLsbD i) ∧
      (alu .xor a b).getLsbD i = (a.getLsbD i != b.getLsbD i)) ∧
    (alu .sll a b).toNat = a.toNat * 2 ^ (b.toNat % 32) % 2 ^ 32 ∧
    (alu .srl a b).toNat = a.toNat / 2 ^ (b.toNat % 32) ∧
    (alu .sra a b).toInt = a.toInt / (2 ^ (b.toNat % 32) : Int) ∧
    (alu .slt a b = 1#32 ↔ a.toInt < b.toInt) ∧ (alu .slt a b = 0#32 ↔ ¬ a.toInt < b.toInt) ∧
    (alu .sltu a b = 1#32 ↔ a.toNat < b.toNat) ∧ (alu .sltu a b = 0#32 ↔ ¬ a.toNat < b.toNat)

/-- R161: only bits 4..0 of the second operand count for the three shifts, and amount 0 returns the first operand. -/
def Obligations.ShiftAmountIsLowFiveBits : Prop :=
  ∀ (op : AluOp), op = .sll ∨ op = .srl ∨ op = .sra → ∀ a b b' : Word,
    (b.extractLsb' 0 5 = b'.extractLsb' 0 5 → alu op a b = alu op a b') ∧
    (b.extractLsb' 0 5 = 0#5 → alu op a b = a) ∧
    alu op a 32#32 = a ∧ alu op a 33#32 = alu op a 1#32 ∧ alu op a 0xFFFFFFFF#32 = alu op a 31#32

/-- R89 to R91, R93, R94: which bits of the word make each immediate, and its range. The positions are D9's. -/
def Obligations.ImmediateFields : Prop :=
  ∀ w : Word,
    immIOf w = w.extractLsb' 20 12 ∧ shamtOf w = w.extractLsb' 20 5 ∧ imm20Of w = w.extractLsb' 12 20 ∧
    (immSOf w).extractLsb' 5 7 = w.extractLsb' 25 7 ∧ (immSOf w).extractLsb' 0 5 = w.extractLsb' 7 5 ∧
    (immBOf w).extractLsb' 12 1 = w.extractLsb' 31 1 ∧ (immBOf w).extractLsb' 11 1 = w.extractLsb' 7 1 ∧
    (immBOf w).extractLsb' 5 6 = w.extractLsb' 25 6 ∧ (immBOf w).extractLsb' 1 4 = w.extractLsb' 8 4 ∧
    (immBOf w).getLsbD 0 = false ∧
    (immJOf w).extractLsb' 20 1 = w.extractLsb' 31 1 ∧ (immJOf w).extractLsb' 12 8 = w.extractLsb' 12 8 ∧
    (immJOf w).extractLsb' 11 1 = w.extractLsb' 20 1 ∧ (immJOf w).extractLsb' 1 10 = w.extractLsb' 21 10 ∧
    (immJOf w).getLsbD 0 = false ∧
    (-2048 ≤ (immWord (immIOf w)).toInt ∧ (immWord (immIOf w)).toInt ≤ 2047) ∧
    (-2048 ≤ (immWord (immSOf w)).toInt ∧ (immWord (immSOf w)).toInt ≤ 2047) ∧
    (-4096 ≤ (immBWord (immBOf w)).toInt ∧ (immBWord (immBOf w)).toInt ≤ 4094) ∧
    (-1048576 ≤ (immJWord (immJOf w)).toInt ∧ (immJWord (immJOf w)).toInt ≤ 1048574)

/-- R53, D6: the wrapped effective address gives the verdict and the word index of the exact signed sum. -/
def Obligations.EffectiveAddressMatchesExactSum : Prop :=
  ∀ (s : State) (rs1 : RegIdx) (imm : BitVec 12),
    s.effectiveAddress rs1 imm = s.reg rs1 + imm.signExtend 32 ∧
    (s.admits (s.effectiveAddress rs1 imm) = true ↔
      0 ≤ ((s.reg rs1).toInt + imm.toInt) / 4 ∧ ((s.reg rs1).toInt + imm.toInt) / 4 < (s.memSize.words : Int)) ∧
    (s.admits (s.effectiveAddress rs1 imm) = true →
      (wordIndex (s.effectiveAddress rs1 imm) : Int) = ((s.reg rs1).toInt + imm.toInt) / 4)

/-- R54 to R57: the bounds check, the word index and the two memory primitives, each with what it leaves alone. The
write is stated from a canonical memory, which is the model's (log 1); every step keeps it. -/
def Obligations.MemoryPrimitives : Prop :=
  ∀ (s : State) (ea : Word),
    (s.admits ea = true ↔ ea.toNat < 4 * s.memSize.words) ∧
    (s.admits ea = true ↔ ea.toNat / 4 < s.memSize.words) ∧
    wordIndex ea = (ea.extractLsb' 2 30).toNat ∧
    (4 * s.memSize.words ≤ ea.toNat → s.memRead ea = none ∧ ∀ v : Word, s.memWrite ea v = none) ∧
    (ea.toNat < 4 * s.memSize.words →
      s.memRead ea = some (s.mem.readWord (ea.toNat / 4)) ∧
      ∀ v : Word, s.mem.wf = true → ∃ t, s.memWrite ea v = some t ∧ t.mem.readWord (ea.toNat / 4) = v ∧
        (∀ j : Nat, j ≠ ea.toNat / 4 → t.mem.readWord j = s.mem.readWord j) ∧
        t = { s with mem := t.mem } ∧ t.memRead ea = some v)

/-- R55: the word index is floor(u(ea) / 4), the vector ea[31:2], and the two low bits take no part in any access. -/
def Obligations.LowAddressBitsAreIgnored : Prop :=
  ∀ (s : State) (ea ea' v : Word),
    wordIndex ea = ea.toNat / 4 ∧ wordIndex ea = (ea.extractLsb' 2 30).toNat ∧
    (ea.extractLsb' 2 30 = ea'.extractLsb' 2 30 →
      s.admits ea = s.admits ea' ∧ s.memRead ea = s.memRead ea' ∧ s.memWrite ea v = s.memWrite ea' v)

/-- R21: x0 reads zero in every state, a write to it is discarded, and no other register is disturbed by a write. -/
def Obligations.RegisterZeroIsHardwired : Prop :=
  ∀ (s : State) (v : Word),
    s.reg 0#5 = 0#32 ∧ s.setReg 0#5 v = s ∧
    (∀ r : RegIdx, r ≠ 0#5 → (s.setReg r v).reg r = v) ∧
    (∀ r q : RegIdx, q ≠ r → (s.setReg r v).reg q = s.reg q) ∧
    (∀ t, step s = .next t → t.reg 0#5 = 0#32)

/-! ## The decoder -/

/-- R101: decoding an encoded well-formed instruction gives it back, every operand at every value. -/
def Obligations.DecodeInvertsEncode : Prop :=
  ∀ i : Instr, i.wellFormed = true → decode (encode i) = .ok i

/-- R101, the other direction: a word that decodes is the word of the well-formed instruction it decodes to. -/
def Obligations.EncodeInvertsDecode : Prop :=
  ∀ (w : Word) (i : Instr), decode w = .ok i → encode i = w ∧ i.wellFormed = true

/-- R101, R102: the decoder's row is the row of the opcode map, the HALT word first. -/
def Obligations.DecoderFollowsOpcodeMap : Prop :=
  ∀ w : Word, (match decode w with | .ok i => some i.mnemonic | .error _ => none) = rowOf w

/-- R101: no word matches two rows of the opcode map. -/
def Obligations.NoWordMatchesTwoRows : Prop :=
  ∀ (w : Word) (r r' : OpcodeRow), r ∈ opcodeRows → r' ∈ opcodeRows → r.accepts w = true → r'.accepts w = true → r = r'

/-- R103, R104: the words the rules list are unrecognised, and with them every word outside the opcode map of R95 to
R100: every major opcode but the nine (the custom opcodes are among them), and under the nine every funct3 and funct7
that no row has. The other loads and stores are D11's, the shift patterns D10's (log 13). -/
def Obligations.ListedWordsAreUnrecognised : Prop :=
  (∃ e, decode 0x00000000#32 = .error e) ∧ (∃ e, decode 0xFFFFFFFF#32 = .error e) ∧
  ∀ w : Word,
    (w.extractLsb' 0 2 ≠ 0b11#2 → ∃ e, decode w = .error e) ∧
    (w.extractLsb' 0 7 ∉ [0b0110011#7, 0b0010011#7, 0b0000011#7, 0b0100011#7, 0b1100011#7, 0b1101111#7,
      0b1100111#7, 0b0110111#7, 0b0010111#7] → ∃ e, decode w = .error e) ∧
    (w.extractLsb' 0 7 = 0b0000011#7 → w.extractLsb' 12 3 ≠ 0b010#3 → ∃ e, decode w = .error e) ∧
    (w.extractLsb' 0 7 = 0b0100011#7 → w.extractLsb' 12 3 ≠ 0b010#3 → ∃ e, decode w = .error e) ∧
    (w.extractLsb' 0 7 = 0b1100011#7 → w.extractLsb' 12 3 = 0b010#3 ∨ w.extractLsb' 12 3 = 0b011#3 →
      ∃ e, decode w = .error e) ∧
    (w.extractLsb' 0 7 = 0b1100111#7 → w.extractLsb' 12 3 ≠ 0b000#3 → ∃ e, decode w = .error e) ∧
    (w.extractLsb' 0 7 = 0b0110011#7 → w.extractLsb' 25 7 ≠ 0b0000000#7 → w.extractLsb' 25 7 ≠ 0b0100000#7 →
      ∃ e, decode w = .error e) ∧
    (w.extractLsb' 0 7 = 0b0110011#7 → w.extractLsb' 25 7 = 0b0100000#7 → w.extractLsb' 12 3 ≠ 0b000#3 →
      w.extractLsb' 12 3 ≠ 0b101#3 → ∃ e, decode w = .error e) ∧
    (w.extractLsb' 0 7 = 0b0010011#7 → w.extractLsb' 12 3 = 0b001#3 → w.extractLsb' 25 7 ≠ 0b0000000#7 →
      ∃ e, decode w = .error e) ∧
    (w.extractLsb' 0 7 = 0b0010011#7 → w.extractLsb' 12 3 = 0b101#3 → w.extractLsb' 25 7 ≠ 0b0000000#7 →
      w.extractLsb' 25 7 ≠ 0b0100000#7 → ∃ e, decode w = .error e)

/-- Words written out from the encodings (95_test_vectors.md S3 and S9, one a format): a sanity statement. -/
def Obligations.SampleWordsDecode : Prop :=
  decode 0x00730333#32 = .ok (.add 6#5 6#5 7#5) ∧ decode 0x00A00293#32 = .ok (.addi 5#5 0#5 10#12) ∧
  decode 0x4040D193#32 = .ok (.srai 3#5 1#5 4#5) ∧ decode 0x00412083#32 = .ok (.lw 1#5 4#12 2#5) ∧
  decode 0x00602023#32 = .ok (.sw 6#5 0#12 0#5) ∧ decode 0xFE539CE3#32 = .ok (.bne 7#5 5#5 (BitVec.ofInt 13 (-8))) ∧
  decode 0x123452B7#32 = .ok (.lui 5#5 0x12345#20) ∧ decode 0x008000EF#32 = .ok (.jal 1#5 8#21) ∧
  decode 0xFFC280E7#32 = .ok (.jalr 1#5 5#5 (BitVec.ofInt 12 (-4))) ∧ decode 0x00000063#32 = .ok .halt

/-! ## The step -/

/-- R131, R133, R135: a step of a core that is not faulted, with a word at the pc that decodes, is exec of the
decoded instruction; nothing is added around it. -/
def Obligations.StepRunsTheDecodedInstruction : Prop :=
  ∀ (s : State) (w : Word) (i : Instr), s.phase ≠ .faulted → s.prog.words[s.pc.toNat / 4]? = some w →
    decode w = .ok i → step s = exec i s

/-- The word that `withFetchWord` places is the one the next step runs (log 21, the model's own). -/
def Obligations.PlacedWordIsRunNext : Prop :=
  ∀ (s : State) (w : Word) (i : Instr), decode w = .ok i →
    step (s.withFetchWord 32 w.toNat) = exec i (s.withFetchWord 32 w.toNat)

/-- R132: at or past the end of the program the step changes the phase and no other architectural state, and a further
step changes nothing. Of the observations nothing is said: R132 keeps the snapshot, R144, U11 and D17 let no claim
depend on it, and the model leaves it free (log 5). -/
def Obligations.StepPastTheEndFinishes : Prop :=
  ∀ s : State, s.phase ≠ .faulted → s.prog.words.length ≤ s.pc.toNat / 4 →
    StepCompletes s (fun t => SameButObservations { s with phase := .finished } t ∧
      StepCompletes t (fun u => SameButObservations t u))

/-- R139, R250: a faulted core is stuck, whatever the program and the number of steps (the phase `faulted` is D13's).
Of the observations nothing is said (log 5). -/
def Obligations.FaultedCoreIsStuck : Prop :=
  ∀ s : State, s.phase = .faulted → ∀ k : Nat, ∃ t : State, Host.Core.run Sys2Proof.core k s = .next t ∧
    SameButObservations s t

/-- R103, R242: a word that decodes to nothing is skipped with one diagnostic, under either UJ_EXEC. -/
def Obligations.UnrecognisedWordIsSkipped : Prop :=
  ∀ (s : State) (w : Word) (e : DecodeError), s.phase ≠ .faulted → s.prog.words[s.pc.toNat / 4]? = some w →
    decode w = .error e → StepCompletes s (fun t => Raised s t .unsupportedOpcode)

/-- R103, R131, R240: no step ends in a fault or a refusal of the host's outcomes. That a step that faults with
MisalignedTarget also answers a next state is the model's reading (log 3): R9 says it has no successor state, R250 gives
the state. -/
def Obligations.EveryStepHasANextState : Prop :=
  ∀ s : State, ∃ t, step s = .next t

/-- R241: the primitive `raise`. -/
def Obligations.RaiseSkipsAndLogs : Prop :=
  ∀ (s : State) (k : DiagKind), Raised s (s.raise k) k

/-- R25 with UJ_EXEC = skip: the complete list of what a step that does not fault does to the pc. -/
def Obligations.PcAdvance : Prop :=
  ∀ s t : State, s.phase ≠ .faulted → s.ujExec = .skip → step s = .next t → t.phase ≠ .faulted →
    (s.fetch = none → t.pc = s.pc) ∧
    (s.current = some .halt → t.pc = s.pc) ∧
    (∀ rs1 rs2 imm, s.current = some (.beq rs1 rs2 imm) →
      t.pc = if s.reg rs1 = s.reg rs2 then s.pc + imm.signExtend 32 else s.pc + 4#32) ∧
    (∀ rs1 rs2 imm, s.current = some (.bne rs1 rs2 imm) →
      t.pc = if s.reg rs1 ≠ s.reg rs2 then s.pc + imm.signExtend 32 else s.pc + 4#32) ∧
    (∀ rs1 rs2 imm, s.current = some (.blt rs1 rs2 imm) →
      t.pc = if (s.reg rs1).toInt < (s.reg rs2).toInt then s.pc + imm.signExtend 32 else s.pc + 4#32) ∧
    (∀ rs1 rs2 imm, s.current = some (.bge rs1 rs2 imm) →
      t.pc = if (s.reg rs2).toInt ≤ (s.reg rs1).toInt then s.pc + imm.signExtend 32 else s.pc + 4#32) ∧
    (∀ rs1 rs2 imm, s.current = some (.bltu rs1 rs2 imm) →
      t.pc = if (s.reg rs1).toNat < (s.reg rs2).toNat then s.pc + imm.signExtend 32 else s.pc + 4#32) ∧
    (∀ rs1 rs2 imm, s.current = some (.bgeu rs1 rs2 imm) →
      t.pc = if (s.reg rs2).toNat ≤ (s.reg rs1).toNat then s.pc + imm.signExtend 32 else s.pc + 4#32) ∧
    (s.fetch ≠ none → s.current ≠ some .halt →
      (∀ rs1 rs2 imm, s.current ≠ some (.beq rs1 rs2 imm) ∧ s.current ≠ some (.bne rs1 rs2 imm) ∧
        s.current ≠ some (.blt rs1 rs2 imm) ∧ s.current ≠ some (.bge rs1 rs2 imm) ∧
        s.current ≠ some (.bltu rs1 rs2 imm) ∧ s.current ≠ some (.bgeu rs1 rs2 imm)) →
      t.pc = s.pc + 4#32)

/-- R139: the phase after a step of a core that was not faulted (the phase `faulted` is D13's, the rest D26's). -/
def Obligations.PhaseTransitions : Prop :=
  ∀ s t : State, s.phase ≠ .faulted → step s = .next t →
    (s.progLen ≤ s.pc.toNat / 4 ∧ t.phase = .finished) ∨
    (s.fetch = some 0x00000063#32 ∧ t.phase = .halted) ∨
    (s.pc.toNat / 4 < s.progLen ∧ s.fetch ≠ some 0x00000063#32 ∧
      ((t.phase = .faulted ∧ t.pc = s.pc ∧ t.running = false ∧
          ∃ target : Word, target.toNat % 4 ≠ 0 ∧ t.faultRecord = some (FaultRecord.mk s.pc target)) ∨
       (t.phase = if s.progLen ≤ t.pc.toNat / 4 then Phase.finished else Phase.executing)))

/-- R26, D3, D5: a branch target that falls below zero wraps past the end of every program; a forward one never wraps. -/
def Obligations.WrappedTargetIsPastTheEnd : Prop :=
  ∀ (s : State) (imm : BitVec 13), s.pc.toNat / 4 < s.progLen →
    ((s.pc.toNat : Int) + imm.toInt < 0 → s.progLen ≤ (s.branchTarget imm).toNat / 4) ∧
    (0 ≤ (s.pc.toNat : Int) + imm.toInt → ((s.branchTarget imm).toNat : Int) = (s.pc.toNat : Int) + imm.toInt) ∧
    (s.pc + 4#32).toNat = s.pc.toNat + 4

/-! ## Whole-machine rules -/

/-- The invariant of the core (R26, R28, R52, R250; canonical memory log 1): every step keeps it, from every state
that meets it. -/
def Obligations.EveryStepKeepsTheInvariant : Prop :=
  ∀ s t : State, s.Inv → step s = .next t → t.Inv

/-- The invariant holds after reset, and after any load and reset. -/
def Obligations.ResetMeetsTheInvariant : Prop :=
  State.reset.Inv ∧ ∀ (s : State) (p : Program), s.hostReset.Inv ∧ (s.load p).Inv

/-- R33, R36, R67: no step changes the program or a parameter. -/
def Obligations.ProgramAndParametersNeverChange : Prop :=
  ∀ (k : Nat) (s t : State), Host.Core.run Sys2Proof.core k s = .next t → SameProgram s t

/-- R32, R57: only an admitted `sw` changes a byte of the data memory, and only inside the word it addresses. -/
def Obligations.OnlyStoresWriteMemory : Prop :=
  ∀ (s t : State) (a : Nat), step s = .next t → t.mem.readByte a ≠ s.mem.readByte a → StoresTo s (a / 4)

/-- R64, D25: along any run, a data word that no step stores to keeps its value. -/
def Obligations.WordKeepsItsValueUntilStoredTo : Prop :=
  ∀ (k : Nat) (s t : State) (idx : Nat), Host.Core.run Sys2Proof.core k s = .next t →
    (∀ (j : Nat) (u : State), j < k → Host.Core.run Sys2Proof.core j s = .next u → ¬ StoresTo u idx) →
    t.mem.readWord idx = s.mem.readWord idx

/-- R64, R274 b: a load of the word that was just stored returns the stored word. -/
def Obligations.LoadReturnsTheStoredWord : Prop :=
  ∀ (s t : State) (rs2 rs1 rd rs1' : RegIdx) (imm imm' : BitVec 12), s.mem.wf = true → rd ≠ 0#5 →
    (s.reg rs1 + imm.signExtend 32).toNat < 4 * s.memSize.words →
    exec (.sw rs2 imm rs1) s = .next t →
    (t.reg rs1' + imm'.signExtend 32).toNat / 4 = (s.reg rs1 + imm.signExtend 32).toNat / 4 →
    Completes (.lw rd imm' rs1') t (fun u => u.reg rd = s.reg rs2 ∧ u.diag = s.diag)

/-- R137: a step commits nothing, or one register write, to the destination of the instruction at the pc, or one write
of the word that the `sw` at the pc addresses; never both. -/
def Obligations.AtMostOneWritePerStep : Prop :=
  ∀ s t : State, step s = .next t →
    (SameRegs s t ∧ SameBytes s t) ∨
    (SameBytes s t ∧ s.phase ≠ .faulted ∧ ∃ (i : Instr) (rd : RegIdx), s.current = some i ∧ destination i = some rd ∧
      ∀ q : RegIdx, q ≠ rd → t.reg q = s.reg q) ∨
    (SameRegs s t ∧ s.phase ≠ .faulted ∧ ∃ (rs2 rs1 : RegIdx) (imm : BitVec 12), s.current = some (.sw rs2 imm rs1) ∧
      s.admits (s.effectiveAddress rs1 imm) = true ∧
      ∀ a : Nat, a < 4 * wordIndex (s.effectiveAddress rs1 imm) ∨ 4 * wordIndex (s.effectiveAddress rs1 imm) + 4 ≤ a →
        t.mem.readByte a = s.mem.readByte a)

/-- R136, R240, R244: a step appends at most one diagnostic; it is of one of the two kinds the binary level has, and
then nothing was written. A MemoryOutOfBounds comes only from a rejected `lw` or `sw`. -/
def Obligations.DiagnosticsAreRecoveredErrors : Prop :=
  ∀ s t : State, step s = .next t →
    t.diag = s.diag ∨
    (Raised s t .unsupportedOpcode ∧
      (s.current = none ∨ (s.ujExec = .skip ∧ ∃ i, s.current = some i ∧
        (i.mnemonic = .lui ∨ i.mnemonic = .auipc ∨ i.mnemonic = .jal ∨ i.mnemonic = .jalr)))) ∨
    (Raised s t .memoryOutOfBounds ∧ ∃ (r rs1 : RegIdx) (imm : BitVec 12),
      (s.current = some (.lw r imm rs1) ∨ s.current = some (.sw r imm rs1)) ∧
      4 * s.memSize.words ≤ (s.reg rs1 + imm.signExtend 32).toNat)

/-- R28, R29, R31, R34: two cores with the same architectural state, neither faulted, go to the same architectural state
and phase and log the same, whatever their phase, run flag, diagnostic log and observations were. -/
def Obligations.ObservationsDoNotInfluenceExecution : Prop :=
  ∀ s s' t t' : State, SameArch s s' → s.phase ≠ .faulted → s'.phase ≠ .faulted →
    step s = .next t → step s' = .next t' →
    SameArch t t' ∧ t.phase = t'.phase ∧ (∃ new, t.diag = s.diag ++ new ∧ t'.diag = s'.diag ++ new)

/-- R132, R134, R139, U16: from `halted`, `finished` or `faulted` no number of steps changes the architectural state,
the phase, the log or the fault record; only the run flag of a halted core can still be cleared (D14). Of the
observations nothing is said (R144, U11; log 5). -/
def Obligations.StoppedCoreStaysAsItIs : Prop :=
  ∀ (k : Nat) (s t : State), s.Inv → s.phase = .halted ∨ s.phase = .finished ∨ s.phase = .faulted →
    Host.Core.run Sys2Proof.core k s = .next t → SameButObservations { s with running := t.running } t

/-! ## Observations -/

/-- R141 to R143, R146: the snapshot and the last-modified indices of every completed instruction of the classes R, I, L,
S and B. The table and the names are D16's (log 25), the absent result of class B is R143's (log 27), the words 1 and 0
are G6's, the conditions of the branches G7's (log 16); the index reported for x0 is free (log 6). -/
def Obligations.SnapshotOfCompletedInstruction : Prop :=
  SnapshotR .add .add (fun a b => a + b) ∧ SnapshotR .sub .sub (fun a b => a - b) ∧
  SnapshotR .and .and (fun a b => a &&& b) ∧ SnapshotR .or .or (fun a b => a ||| b) ∧
  SnapshotR .xor .xor (fun a b => a ^^^ b) ∧
  SnapshotR .sll .sll (fun a b => a <<< (b.toNat % 32)) ∧ SnapshotR .srl .srl (fun a b => a >>> (b.toNat % 32)) ∧
  SnapshotR .sra .sra (fun a b => a.sshiftRight (b.toNat % 32)) ∧
  SnapshotR .slt .slt (fun a b => if a.toInt < b.toInt then 1#32 else 0#32) ∧
  SnapshotR .sltu .sltu (fun a b => if a.toNat < b.toNat then 1#32 else 0#32) ∧
  SnapshotI (fun imm => imm.signExtend 32) .addi .add (fun a b => a + b) ∧
  SnapshotI (fun imm => imm.signExtend 32) .andi .and (fun a b => a &&& b) ∧
  SnapshotI (fun imm => imm.signExtend 32) .ori .or (fun a b => a ||| b) ∧
  SnapshotI (fun imm => imm.signExtend 32) .xori .xor (fun a b => a ^^^ b) ∧
  SnapshotI (fun imm => imm.signExtend 32) .slti .slt (fun a b => if a.toInt < b.toInt then 1#32 else 0#32) ∧
  SnapshotI (fun imm => imm.signExtend 32) .sltiu .sltu (fun a b => if a.toNat < b.toNat then 1#32 else 0#32) ∧
  SnapshotI (fun shamt => shamt.setWidth 32) .slli .sll (fun a b => a <<< b.toNat) ∧
  SnapshotI (fun shamt => shamt.setWidth 32) .srli .srl (fun a b => a >>> b.toNat) ∧
  SnapshotI (fun shamt => shamt.setWidth 32) .srai .sra (fun a b => a.sshiftRight b.toNat) ∧
  (∀ (rd rs1 : RegIdx) (imm : BitVec 12) (s : State), (s.reg rs1 + imm.signExtend 32).toNat < 4 * s.memSize.words →
    Completes (.lw rd imm rs1) s (fun t => ObservedWrite t rd ⟨.l, ⟨true, true, true, false, false⟩, .op .add,
      some (s.reg rs1 + imm.signExtend 32), some (imm.signExtend 32)⟩)) ∧
  (∀ (rs2 rs1 : RegIdx) (imm : BitVec 12) (s : State), (s.reg rs1 + imm.signExtend 32).toNat < 4 * s.memSize.words →
    Completes (.sw rs2 imm rs1) s (fun t =>
      t.signal = some ⟨.s, ⟨false, true, false, true, false⟩, .op .add, some (s.reg rs1 + imm.signExtend 32),
        some (imm.signExtend 32)⟩ ∧
      t.lastReg = none ∧ t.lastMem = some ((s.reg rs1 + imm.signExtend 32).toNat / 4))) ∧
  SnapshotB .beq .eq (fun a b => a = b) ∧ SnapshotB .bne .ne (fun a b => a ≠ b) ∧
  SnapshotB .blt .lt (fun a b => a.toInt < b.toInt) ∧ SnapshotB .bge .ge (fun a b => b.toInt ≤ a.toInt) ∧
  SnapshotB .bltu .ltu (fun a b => a.toNat < b.toNat) ∧ SnapshotB .bgeu .geu (fun a b => b.toNat ≤ a.toNat)

/-! ## The host's operations -/

/-- R270: `reset` from any state. -/
def Obligations.HostResetClearsTheCore : Prop :=
  ∀ s : State,
    (∀ r : RegIdx, s.hostReset.reg r = 0#32) ∧ (∀ i : Nat, s.hostReset.mem.readWord i = 0#32) ∧
    s.hostReset.pc = 0#32 ∧ s.hostReset.running = false ∧ s.hostReset.phase = .ready ∧ s.hostReset.signal = none ∧
    s.hostReset.diag = [] ∧ SameProgram s s.hostReset

/-- R35: the values right after reset (D20, D17), and R272: the first step after a load fetches word 0 of the new
program. That the fault record is none after reset is the model's (log 4); that the observations of a finished step are
left open is log 5. -/
def Obligations.ResetStateAndEntryPoint : Prop :=
  (∀ r : RegIdx, State.reset.reg r = 0#32) ∧ (∀ i : Nat, State.reset.mem.readWord i = 0#32) ∧
  State.reset.pc = 0#32 ∧ State.reset.running = false ∧ State.reset.phase = .ready ∧ State.reset.signal = none ∧
  State.reset.lastReg = none ∧ State.reset.lastMem = none ∧ State.reset.diag = [] ∧
  ∀ (s : State) (p : Program), (s.load p).prog = p ∧ (s.load p).fetch = p.words[0]? ∧
    (s.load p) = { s.hostReset with prog := p } ∧
    s.hostReset.lastReg = none ∧ s.hostReset.lastMem = none ∧ s.hostReset.faultRecord = none ∧
    (p.words = [] → StepCompletes (s.load p) (fun t => SameButObservations { s.load p with phase := .finished } t))

/-- R140: what a run loop goes through is a sequence of steps: a loop that has used at most `fuel` rounds stands where
that many steps lead, but for the run flag, and if it has ended by itself it ended in a stopping phase. -/
def Obligations.RunLoopIsASequenceOfSteps : Prop :=
  ∀ (fuel : Nat) (s u : State), s.running = true → runLoop fuel s = .next u →
    ∃ (k : Nat) (t : State), k ≤ fuel ∧ Host.Core.run Sys2Proof.core k s = .next t ∧
      u = { t with running := u.running } ∧
      ((u.running = true ∧ k = fuel) ∨
       (u.running = false ∧ 0 < k ∧ (u.phase = .halted ∨ u.phase = .finished ∨ u.phase = .faulted)))

/-- R140, R281: `run` with no loop active sets the run flag and takes its first step at once, and the loop goes on unless
that step ended in a stopping phase; `run` while a loop is active stops it, as `stop` does, with no further step; a round
without a loop and `set-delay` change nothing. So `run` and at once `stop`, or `run` twice, take one step. -/
def Obligations.HostToggleStopAndDelay : Prop :=
  (∀ s : State, s.running = true → HostOp.apply .run s = .next { s with running := false }) ∧
  (∀ s : State, HostOp.apply .stop s = .next { s with running := false }) ∧
  (∀ (s : State) (ms : Nat), HostOp.apply (.setDelay ms) s = .next s) ∧
  (∀ s : State, s.running = false → HostOp.apply .tick s = .next s) ∧
  (∀ s : State, s.running = false → ∃ t u : State,
    step { s with running := true } = .next t ∧ HostOp.apply .run s = .next u ∧ u = { t with running := u.running } ∧
    (u.running = true ↔ t.phase = .ready ∨ t.phase = .executing) ∧
    (u.running = true → HostOp.apply .run u = .next { t with running := false }) ∧
    HostOp.apply .stop u = .next { t with running := false })

/-! ## The text level -/

/-- The document's round trip (30_encoding.md R101, R116, 95_test_vectors.md S3): for every well-formed instruction the
encoder's word, made from the mnemonic and the operands as text numbers, decodes to that instruction. -/
def Obligations.TextEncoderRoundTrip : Prop :=
  ∀ (order : Asm.JalrOrder) (i : Instr), i.wellFormed = true →
    ∃ w : Word, Asm.encodeParsed order (Asm.parsedOf order i) = .word w ∧ decode w = .ok i

/-- R117: a value is encoded modulo the width of its field, for every field, and bit 0 of a displacement is dropped. -/
def Obligations.EncoderTruncatesToTheField : Prop :=
  ∀ (order : Asm.JalrOrder) (a b : RegIdx) (v : Int),
    (∀ m : Mnemonic, m = .addi ∨ m = .andi ∨ m = .ori ∨ m = .xori ∨ m = .slti ∨ m = .sltiu →
      ∃ w : Word, Asm.encodeParsed order ⟨Asm.spelling m, [some (Asm.regInt a), some (Asm.regInt b), some v]⟩ = .word w ∧
        ((immIOf w).toNat : Int) = v % 4096) ∧
    (∀ m : Mnemonic, m = .slli ∨ m = .srli ∨ m = .srai →
      ∃ w : Word, Asm.encodeParsed order ⟨Asm.spelling m, [some (Asm.regInt a), some (Asm.regInt b), some v]⟩ = .word w ∧
        ((shamtOf w).toNat : Int) = v % 32) ∧
    (∃ w : Word, Asm.encodeParsed order ⟨Asm.spelling .lw, [some (Asm.regInt a), some v, some (Asm.regInt b)]⟩ = .word w ∧
      ((immIOf w).toNat : Int) = v % 4096) ∧
    (∃ w : Word, Asm.encodeParsed order ⟨Asm.spelling .sw, [some (Asm.regInt a), some v, some (Asm.regInt b)]⟩ = .word w ∧
      ((immSOf w).toNat : Int) = v % 4096) ∧
    (∃ w : Word, Asm.encodeParsed order ⟨Asm.spelling .jalr,
        match order with
        | .rdRs1Imm => [some (Asm.regInt a), some (Asm.regInt b), some v]
        | .rdImmRs1 => [some (Asm.regInt a), some v, some (Asm.regInt b)]⟩ = .word w ∧
      ((immIOf w).toNat : Int) = v % 4096) ∧
    (∀ m : Mnemonic, m = .beq ∨ m = .bne ∨ m = .blt ∨ m = .bge ∨ m = .bltu ∨ m = .bgeu →
      ∃ w : Word, Asm.encodeParsed order ⟨Asm.spelling m, [some (Asm.regInt a), some (Asm.regInt b), some v]⟩ = .word w ∧
        ((immBOf w).toNat : Int) = v % 8192 - v % 2) ∧
    (∀ m : Mnemonic, m = .lui ∨ m = .auipc →
      ∃ w : Word, Asm.encodeParsed order ⟨Asm.spelling m, [some (Asm.regInt a), some v]⟩ = .word w ∧
        ((imm20Of w).toNat : Int) = v % 1048576) ∧
    (∃ w : Word, Asm.encodeParsed order ⟨Asm.spelling .jal, [some (Asm.regInt a), some v]⟩ = .word w ∧
      ((immJOf w).toNat : Int) = v % 2097152 - v % 2)
end

