-- ==== Sys2Proof/Laws/State.lean ====
section
/-!
SUPPORT. What each update of the state does to each field: one lemma a field and update, so that no later proof
unfolds a record update.
-/

namespace Sys2Proof.Machine

/-! ## Fields a pc update, an observation or a commit leaves or sets -/

@[simp] theorem setReg_pc (s : State) (r : RegIdx) (v : Word) : (s.setReg r v).pc = s.pc := by unfold State.setReg; split <;> rfl
@[simp] theorem setReg_phase (s : State) (r : RegIdx) (v : Word) : (s.setReg r v).phase = s.phase := by unfold State.setReg; split <;> rfl
@[simp] theorem setReg_running (s : State) (r : RegIdx) (v : Word) : (s.setReg r v).running = s.running := by unfold State.setReg; split <;> rfl
@[simp] theorem setReg_mem (s : State) (r : RegIdx) (v : Word) : (s.setReg r v).mem = s.mem := by unfold State.setReg; split <;> rfl
@[simp] theorem setReg_diag (s : State) (r : RegIdx) (v : Word) : (s.setReg r v).diag = s.diag := by unfold State.setReg; split <;> rfl
@[simp] theorem setReg_faultRecord (s : State) (r : RegIdx) (v : Word) : (s.setReg r v).faultRecord = s.faultRecord := by unfold State.setReg; split <;> rfl
@[simp] theorem setReg_signal (s : State) (r : RegIdx) (v : Word) : (s.setReg r v).signal = s.signal := by unfold State.setReg; split <;> rfl
@[simp] theorem setReg_lastReg (s : State) (r : RegIdx) (v : Word) : (s.setReg r v).lastReg = s.lastReg := by unfold State.setReg; split <;> rfl
@[simp] theorem setReg_lastMem (s : State) (r : RegIdx) (v : Word) : (s.setReg r v).lastMem = s.lastMem := by unfold State.setReg; split <;> rfl
@[simp] theorem setReg_prog (s : State) (r : RegIdx) (v : Word) : (s.setReg r v).prog = s.prog := by unfold State.setReg; split <;> rfl
@[simp] theorem setReg_memSize (s : State) (r : RegIdx) (v : Word) : (s.setReg r v).memSize = s.memSize := by unfold State.setReg; split <;> rfl
@[simp] theorem setReg_ujExec (s : State) (r : RegIdx) (v : Word) : (s.setReg r v).ujExec = s.ujExec := by unfold State.setReg; split <;> rfl
@[simp] theorem setReg_freeCount (s : State) (r : RegIdx) (v : Word) : (s.setReg r v).freeCount = s.freeCount := by unfold State.setReg; split <;> rfl

@[simp] theorem goTo_x (s : State) (t : Word) : (s.goTo t).x = s.x := rfl
@[simp] theorem goTo_pc (s : State) (t : Word) : (s.goTo t).pc = t := rfl
@[simp] theorem goTo_phase (s : State) (t : Word) : (s.goTo t).phase = phaseAt s.progLen t := rfl
@[simp] theorem goTo_running (s : State) (t : Word) : (s.goTo t).running = s.running := rfl
@[simp] theorem goTo_mem (s : State) (t : Word) : (s.goTo t).mem = s.mem := rfl
@[simp] theorem goTo_diag (s : State) (t : Word) : (s.goTo t).diag = s.diag := rfl
@[simp] theorem goTo_faultRecord (s : State) (t : Word) : (s.goTo t).faultRecord = s.faultRecord := rfl
@[simp] theorem goTo_signal (s : State) (t : Word) : (s.goTo t).signal = s.signal := rfl
@[simp] theorem goTo_lastReg (s : State) (t : Word) : (s.goTo t).lastReg = s.lastReg := rfl
@[simp] theorem goTo_lastMem (s : State) (t : Word) : (s.goTo t).lastMem = s.lastMem := rfl
@[simp] theorem goTo_prog (s : State) (t : Word) : (s.goTo t).prog = s.prog := rfl
@[simp] theorem goTo_memSize (s : State) (t : Word) : (s.goTo t).memSize = s.memSize := rfl
@[simp] theorem goTo_ujExec (s : State) (t : Word) : (s.goTo t).ujExec = s.ujExec := rfl
@[simp] theorem goTo_freeCount (s : State) (t : Word) : (s.goTo t).freeCount = s.freeCount := rfl

@[simp] theorem advance_x (s : State) : (s.advance).x = s.x := rfl
@[simp] theorem advance_pc (s : State) : (s.advance).pc = s.pc + 4#32 := rfl
@[simp] theorem advance_phase (s : State) : (s.advance).phase = phaseAt s.progLen (s.pc + 4#32) := rfl
@[simp] theorem advance_running (s : State) : (s.advance).running = s.running := rfl
@[simp] theorem advance_mem (s : State) : (s.advance).mem = s.mem := rfl
@[simp] theorem advance_diag (s : State) : (s.advance).diag = s.diag := rfl
@[simp] theorem advance_faultRecord (s : State) : (s.advance).faultRecord = s.faultRecord := rfl
@[simp] theorem advance_signal (s : State) : (s.advance).signal = s.signal := rfl
@[simp] theorem advance_lastReg (s : State) : (s.advance).lastReg = s.lastReg := rfl
@[simp] theorem advance_lastMem (s : State) : (s.advance).lastMem = s.lastMem := rfl
@[simp] theorem advance_prog (s : State) : (s.advance).prog = s.prog := rfl
@[simp] theorem advance_memSize (s : State) : (s.advance).memSize = s.memSize := rfl
@[simp] theorem advance_ujExec (s : State) : (s.advance).ujExec = s.ujExec := rfl
@[simp] theorem advance_freeCount (s : State) : (s.advance).freeCount = s.freeCount := rfl

@[simp] theorem finish_x (s : State) : (s.finish).x = s.x := rfl
@[simp] theorem finish_pc (s : State) : (s.finish).pc = s.pc := rfl
@[simp] theorem finish_phase (s : State) : (s.finish).phase = .finished := rfl
@[simp] theorem finish_running (s : State) : (s.finish).running = s.running := rfl
@[simp] theorem finish_mem (s : State) : (s.finish).mem = s.mem := rfl
@[simp] theorem finish_diag (s : State) : (s.finish).diag = s.diag := rfl
@[simp] theorem finish_faultRecord (s : State) : (s.finish).faultRecord = s.faultRecord := rfl
@[simp] theorem finish_signal (s : State) : (s.finish).signal = Config.freeSignal s.freeCount := rfl
@[simp] theorem finish_lastReg (s : State) : (s.finish).lastReg = Config.freeLastReg s.freeCount := rfl
@[simp] theorem finish_lastMem (s : State) : (s.finish).lastMem = Config.freeLastMem s.freeCount := rfl
@[simp] theorem finish_prog (s : State) : (s.finish).prog = s.prog := rfl
@[simp] theorem finish_memSize (s : State) : (s.finish).memSize = s.memSize := rfl
@[simp] theorem finish_ujExec (s : State) : (s.finish).ujExec = s.ujExec := rfl
@[simp] theorem finish_freeCount (s : State) : (s.finish).freeCount = s.freeCount + 1 := rfl

@[simp] theorem stuck_x (s : State) : (s.stuck).x = s.x := rfl
@[simp] theorem stuck_pc (s : State) : (s.stuck).pc = s.pc := rfl
@[simp] theorem stuck_phase (s : State) : (s.stuck).phase = s.phase := rfl
@[simp] theorem stuck_running (s : State) : (s.stuck).running = s.running := rfl
@[simp] theorem stuck_mem (s : State) : (s.stuck).mem = s.mem := rfl
@[simp] theorem stuck_diag (s : State) : (s.stuck).diag = s.diag := rfl
@[simp] theorem stuck_faultRecord (s : State) : (s.stuck).faultRecord = s.faultRecord := rfl
@[simp] theorem stuck_signal (s : State) : (s.stuck).signal = Config.freeSignal s.freeCount := rfl
@[simp] theorem stuck_lastReg (s : State) : (s.stuck).lastReg = Config.freeLastReg s.freeCount := rfl
@[simp] theorem stuck_lastMem (s : State) : (s.stuck).lastMem = Config.freeLastMem s.freeCount := rfl
@[simp] theorem stuck_prog (s : State) : (s.stuck).prog = s.prog := rfl
@[simp] theorem stuck_memSize (s : State) : (s.stuck).memSize = s.memSize := rfl
@[simp] theorem stuck_ujExec (s : State) : (s.stuck).ujExec = s.ujExec := rfl
@[simp] theorem stuck_freeCount (s : State) : (s.stuck).freeCount = s.freeCount + 1 := rfl

@[simp] theorem observe_x (s : State) (sig : Signal) (a : Option RegIdx) (b : Option Nat) : (s.observe sig a b).x = s.x := rfl
@[simp] theorem observe_pc (s : State) (sig : Signal) (a : Option RegIdx) (b : Option Nat) : (s.observe sig a b).pc = s.pc := rfl
@[simp] theorem observe_phase (s : State) (sig : Signal) (a : Option RegIdx) (b : Option Nat) : (s.observe sig a b).phase = s.phase := rfl
@[simp] theorem observe_running (s : State) (sig : Signal) (a : Option RegIdx) (b : Option Nat) : (s.observe sig a b).running = s.running := rfl
@[simp] theorem observe_mem (s : State) (sig : Signal) (a : Option RegIdx) (b : Option Nat) : (s.observe sig a b).mem = s.mem := rfl
@[simp] theorem observe_diag (s : State) (sig : Signal) (a : Option RegIdx) (b : Option Nat) : (s.observe sig a b).diag = s.diag := rfl
@[simp] theorem observe_faultRecord (s : State) (sig : Signal) (a : Option RegIdx) (b : Option Nat) : (s.observe sig a b).faultRecord = s.faultRecord := rfl
@[simp] theorem observe_signal (s : State) (sig : Signal) (a : Option RegIdx) (b : Option Nat) : (s.observe sig a b).signal = some sig := rfl
@[simp] theorem observe_lastReg (s : State) (sig : Signal) (a : Option RegIdx) (b : Option Nat) : (s.observe sig a b).lastReg = a := rfl
@[simp] theorem observe_lastMem (s : State) (sig : Signal) (a : Option RegIdx) (b : Option Nat) : (s.observe sig a b).lastMem = b := rfl
@[simp] theorem observe_prog (s : State) (sig : Signal) (a : Option RegIdx) (b : Option Nat) : (s.observe sig a b).prog = s.prog := rfl
@[simp] theorem observe_memSize (s : State) (sig : Signal) (a : Option RegIdx) (b : Option Nat) : (s.observe sig a b).memSize = s.memSize := rfl
@[simp] theorem observe_ujExec (s : State) (sig : Signal) (a : Option RegIdx) (b : Option Nat) : (s.observe sig a b).ujExec = s.ujExec := rfl
@[simp] theorem observe_freeCount (s : State) (sig : Signal) (a : Option RegIdx) (b : Option Nat) : (s.observe sig a b).freeCount = s.freeCount := rfl

@[simp] theorem observeFree_x (s : State) : (s.observeFree).x = s.x := rfl
@[simp] theorem observeFree_pc (s : State) : (s.observeFree).pc = s.pc := rfl
@[simp] theorem observeFree_phase (s : State) : (s.observeFree).phase = s.phase := rfl
@[simp] theorem observeFree_running (s : State) : (s.observeFree).running = s.running := rfl
@[simp] theorem observeFree_mem (s : State) : (s.observeFree).mem = s.mem := rfl
@[simp] theorem observeFree_diag (s : State) : (s.observeFree).diag = s.diag := rfl
@[simp] theorem observeFree_faultRecord (s : State) : (s.observeFree).faultRecord = s.faultRecord := rfl
@[simp] theorem observeFree_signal (s : State) : (s.observeFree).signal = Config.freeSignal s.freeCount := rfl
@[simp] theorem observeFree_lastReg (s : State) : (s.observeFree).lastReg = Config.freeLastReg s.freeCount := rfl
@[simp] theorem observeFree_lastMem (s : State) : (s.observeFree).lastMem = Config.freeLastMem s.freeCount := rfl
@[simp] theorem observeFree_prog (s : State) : (s.observeFree).prog = s.prog := rfl
@[simp] theorem observeFree_memSize (s : State) : (s.observeFree).memSize = s.memSize := rfl
@[simp] theorem observeFree_ujExec (s : State) : (s.observeFree).ujExec = s.ujExec := rfl
@[simp] theorem observeFree_freeCount (s : State) : (s.observeFree).freeCount = s.freeCount + 1 := rfl

@[simp] theorem commitReg_x (s : State) (rd : RegIdx) (v : Word) (sig : Option Signal) : (s.commitReg rd v sig).x = (s.setReg rd v).x := rfl
@[simp] theorem commitReg_pc (s : State) (rd : RegIdx) (v : Word) (sig : Option Signal) : (s.commitReg rd v sig).pc = s.pc := setReg_pc s rd v
@[simp] theorem commitReg_phase (s : State) (rd : RegIdx) (v : Word) (sig : Option Signal) : (s.commitReg rd v sig).phase = s.phase := setReg_phase s rd v
@[simp] theorem commitReg_running (s : State) (rd : RegIdx) (v : Word) (sig : Option Signal) : (s.commitReg rd v sig).running = s.running := setReg_running s rd v
@[simp] theorem commitReg_mem (s : State) (rd : RegIdx) (v : Word) (sig : Option Signal) : (s.commitReg rd v sig).mem = s.mem := setReg_mem s rd v
@[simp] theorem commitReg_diag (s : State) (rd : RegIdx) (v : Word) (sig : Option Signal) : (s.commitReg rd v sig).diag = s.diag := setReg_diag s rd v
@[simp] theorem commitReg_faultRecord (s : State) (rd : RegIdx) (v : Word) (sig : Option Signal) : (s.commitReg rd v sig).faultRecord = s.faultRecord := setReg_faultRecord s rd v
@[simp] theorem commitReg_signal (s : State) (rd : RegIdx) (v : Word) (sig : Option Signal) : (s.commitReg rd v sig).signal = sig := rfl
@[simp] theorem commitReg_lastReg (s : State) (rd : RegIdx) (v : Word) (sig : Option Signal) : (s.commitReg rd v sig).lastReg = reportedReg s.freeCount rd := rfl
@[simp] theorem commitReg_lastMem (s : State) (rd : RegIdx) (v : Word) (sig : Option Signal) : (s.commitReg rd v sig).lastMem = none := rfl
@[simp] theorem commitReg_prog (s : State) (rd : RegIdx) (v : Word) (sig : Option Signal) : (s.commitReg rd v sig).prog = s.prog := setReg_prog s rd v
@[simp] theorem commitReg_memSize (s : State) (rd : RegIdx) (v : Word) (sig : Option Signal) : (s.commitReg rd v sig).memSize = s.memSize := setReg_memSize s rd v
@[simp] theorem commitReg_ujExec (s : State) (rd : RegIdx) (v : Word) (sig : Option Signal) : (s.commitReg rd v sig).ujExec = s.ujExec := setReg_ujExec s rd v
@[simp] theorem commitReg_freeCount (s : State) (rd : RegIdx) (v : Word) (sig : Option Signal) : (s.commitReg rd v sig).freeCount = s.freeCount + 1 := rfl

@[simp] theorem raise_x (s : State) (k : DiagKind) : (s.raise k).x = s.x := rfl
@[simp] theorem raise_pc (s : State) (k : DiagKind) : (s.raise k).pc = s.pc + 4#32 := rfl
@[simp] theorem raise_phase (s : State) (k : DiagKind) : (s.raise k).phase = phaseAt s.progLen (s.pc + 4#32) := rfl
@[simp] theorem raise_running (s : State) (k : DiagKind) : (s.raise k).running = s.running := rfl
@[simp] theorem raise_mem (s : State) (k : DiagKind) : (s.raise k).mem = s.mem := rfl
@[simp] theorem raise_diag (s : State) (k : DiagKind) : (s.raise k).diag = s.diag ++ [Diag.mk k s.pc] := rfl
@[simp] theorem raise_faultRecord (s : State) (k : DiagKind) : (s.raise k).faultRecord = s.faultRecord := rfl
@[simp] theorem raise_signal (s : State) (k : DiagKind) : (s.raise k).signal = Config.freeSignal s.freeCount := rfl
@[simp] theorem raise_lastReg (s : State) (k : DiagKind) : (s.raise k).lastReg = Config.freeLastReg s.freeCount := rfl
@[simp] theorem raise_lastMem (s : State) (k : DiagKind) : (s.raise k).lastMem = Config.freeLastMem s.freeCount := rfl
@[simp] theorem raise_prog (s : State) (k : DiagKind) : (s.raise k).prog = s.prog := rfl
@[simp] theorem raise_memSize (s : State) (k : DiagKind) : (s.raise k).memSize = s.memSize := rfl
@[simp] theorem raise_ujExec (s : State) (k : DiagKind) : (s.raise k).ujExec = s.ujExec := rfl
@[simp] theorem raise_freeCount (s : State) (k : DiagKind) : (s.raise k).freeCount = s.freeCount + 1 := rfl

@[simp] theorem faultMisaligned_x (s : State) (t : Word) : (s.faultMisaligned t).x = s.x := rfl
@[simp] theorem faultMisaligned_pc (s : State) (t : Word) : (s.faultMisaligned t).pc = s.pc := rfl
@[simp] theorem faultMisaligned_phase (s : State) (t : Word) : (s.faultMisaligned t).phase = .faulted := rfl
@[simp] theorem faultMisaligned_running (s : State) (t : Word) : (s.faultMisaligned t).running = false := rfl
@[simp] theorem faultMisaligned_mem (s : State) (t : Word) : (s.faultMisaligned t).mem = s.mem := rfl
@[simp] theorem faultMisaligned_diag (s : State) (t : Word) : (s.faultMisaligned t).diag = s.diag := rfl
@[simp] theorem faultMisaligned_faultRecord (s : State) (t : Word) : (s.faultMisaligned t).faultRecord = some (FaultRecord.mk s.pc t) := rfl
@[simp] theorem faultMisaligned_signal (s : State) (t : Word) : (s.faultMisaligned t).signal = Config.freeSignal s.freeCount := rfl
@[simp] theorem faultMisaligned_lastReg (s : State) (t : Word) : (s.faultMisaligned t).lastReg = Config.freeLastReg s.freeCount := rfl
@[simp] theorem faultMisaligned_lastMem (s : State) (t : Word) : (s.faultMisaligned t).lastMem = Config.freeLastMem s.freeCount := rfl
@[simp] theorem faultMisaligned_prog (s : State) (t : Word) : (s.faultMisaligned t).prog = s.prog := rfl
@[simp] theorem faultMisaligned_memSize (s : State) (t : Word) : (s.faultMisaligned t).memSize = s.memSize := rfl
@[simp] theorem faultMisaligned_ujExec (s : State) (t : Word) : (s.faultMisaligned t).ujExec = s.ujExec := rfl
@[simp] theorem faultMisaligned_freeCount (s : State) (t : Word) : (s.faultMisaligned t).freeCount = s.freeCount + 1 := rfl

@[simp] theorem halt_x (s : State) : (s.halt).x = s.x := rfl
@[simp] theorem halt_pc (s : State) : (s.halt).pc = s.pc := rfl
@[simp] theorem halt_phase (s : State) : (s.halt).phase = .halted := rfl
@[simp] theorem halt_running (s : State) : (s.halt).running = false := rfl
@[simp] theorem halt_mem (s : State) : (s.halt).mem = s.mem := rfl
@[simp] theorem halt_diag (s : State) : (s.halt).diag = s.diag := rfl
@[simp] theorem halt_faultRecord (s : State) : (s.halt).faultRecord = s.faultRecord := rfl
@[simp] theorem halt_signal (s : State) : (s.halt).signal = Config.freeSignal s.freeCount := rfl
@[simp] theorem halt_lastReg (s : State) : (s.halt).lastReg = Config.freeLastReg s.freeCount := rfl
@[simp] theorem halt_lastMem (s : State) : (s.halt).lastMem = Config.freeLastMem s.freeCount := rfl
@[simp] theorem halt_prog (s : State) : (s.halt).prog = s.prog := rfl
@[simp] theorem halt_memSize (s : State) : (s.halt).memSize = s.memSize := rfl
@[simp] theorem halt_ujExec (s : State) : (s.halt).ujExec = s.ujExec := rfl
@[simp] theorem halt_freeCount (s : State) : (s.halt).freeCount = s.freeCount + 1 := rfl

@[simp] theorem startRun_x (s : State) : (s.startRun).x = s.x := rfl
@[simp] theorem startRun_pc (s : State) : (s.startRun).pc = s.pc := rfl
@[simp] theorem startRun_phase (s : State) : (s.startRun).phase = s.phase := rfl
@[simp] theorem startRun_running (s : State) : (s.startRun).running = true := rfl
@[simp] theorem startRun_mem (s : State) : (s.startRun).mem = s.mem := rfl
@[simp] theorem startRun_diag (s : State) : (s.startRun).diag = s.diag := rfl
@[simp] theorem startRun_faultRecord (s : State) : (s.startRun).faultRecord = s.faultRecord := rfl
@[simp] theorem startRun_signal (s : State) : (s.startRun).signal = s.signal := rfl
@[simp] theorem startRun_lastReg (s : State) : (s.startRun).lastReg = s.lastReg := rfl
@[simp] theorem startRun_lastMem (s : State) : (s.startRun).lastMem = s.lastMem := rfl
@[simp] theorem startRun_prog (s : State) : (s.startRun).prog = s.prog := rfl
@[simp] theorem startRun_memSize (s : State) : (s.startRun).memSize = s.memSize := rfl
@[simp] theorem startRun_ujExec (s : State) : (s.startRun).ujExec = s.ujExec := rfl
@[simp] theorem startRun_freeCount (s : State) : (s.startRun).freeCount = s.freeCount := rfl

@[simp] theorem stop_x (s : State) : (s.stop).x = s.x := rfl
@[simp] theorem stop_pc (s : State) : (s.stop).pc = s.pc := rfl
@[simp] theorem stop_phase (s : State) : (s.stop).phase = s.phase := rfl
@[simp] theorem stop_running (s : State) : (s.stop).running = false := rfl
@[simp] theorem stop_mem (s : State) : (s.stop).mem = s.mem := rfl
@[simp] theorem stop_diag (s : State) : (s.stop).diag = s.diag := rfl
@[simp] theorem stop_faultRecord (s : State) : (s.stop).faultRecord = s.faultRecord := rfl
@[simp] theorem stop_signal (s : State) : (s.stop).signal = s.signal := rfl
@[simp] theorem stop_lastReg (s : State) : (s.stop).lastReg = s.lastReg := rfl
@[simp] theorem stop_lastMem (s : State) : (s.stop).lastMem = s.lastMem := rfl
@[simp] theorem stop_prog (s : State) : (s.stop).prog = s.prog := rfl
@[simp] theorem stop_memSize (s : State) : (s.stop).memSize = s.memSize := rfl
@[simp] theorem stop_ujExec (s : State) : (s.stop).ujExec = s.ujExec := rfl
@[simp] theorem stop_freeCount (s : State) : (s.stop).freeCount = s.freeCount := rfl

@[simp] theorem settleRun_x (s : State) : (s.settleRun).x = s.x := by unfold State.settleRun; split <;> rfl
@[simp] theorem settleRun_pc (s : State) : (s.settleRun).pc = s.pc := by unfold State.settleRun; split <;> rfl
@[simp] theorem settleRun_phase (s : State) : (s.settleRun).phase = s.phase := by unfold State.settleRun; split <;> rfl
@[simp] theorem settleRun_mem (s : State) : (s.settleRun).mem = s.mem := by unfold State.settleRun; split <;> rfl
@[simp] theorem settleRun_diag (s : State) : (s.settleRun).diag = s.diag := by unfold State.settleRun; split <;> rfl
@[simp] theorem settleRun_faultRecord (s : State) : (s.settleRun).faultRecord = s.faultRecord := by unfold State.settleRun; split <;> rfl
@[simp] theorem settleRun_signal (s : State) : (s.settleRun).signal = s.signal := by unfold State.settleRun; split <;> rfl
@[simp] theorem settleRun_lastReg (s : State) : (s.settleRun).lastReg = s.lastReg := by unfold State.settleRun; split <;> rfl
@[simp] theorem settleRun_lastMem (s : State) : (s.settleRun).lastMem = s.lastMem := by unfold State.settleRun; split <;> rfl
@[simp] theorem settleRun_prog (s : State) : (s.settleRun).prog = s.prog := by unfold State.settleRun; split <;> rfl
@[simp] theorem settleRun_memSize (s : State) : (s.settleRun).memSize = s.memSize := by unfold State.settleRun; split <;> rfl
@[simp] theorem settleRun_ujExec (s : State) : (s.settleRun).ujExec = s.ujExec := by unfold State.settleRun; split <;> rfl
@[simp] theorem settleRun_freeCount (s : State) : (s.settleRun).freeCount = s.freeCount := by unfold State.settleRun; split <;> rfl

@[simp] theorem hostReset_x (s : State) : (s.hostReset).x = Vector.replicate 31 0#32 := rfl
@[simp] theorem hostReset_pc (s : State) : (s.hostReset).pc = 0#32 := rfl
@[simp] theorem hostReset_phase (s : State) : (s.hostReset).phase = .ready := rfl
@[simp] theorem hostReset_running (s : State) : (s.hostReset).running = false := rfl
@[simp] theorem hostReset_mem (s : State) : (s.hostReset).mem = [] := rfl
@[simp] theorem hostReset_diag (s : State) : (s.hostReset).diag = [] := rfl
@[simp] theorem hostReset_faultRecord (s : State) : (s.hostReset).faultRecord = none := rfl
@[simp] theorem hostReset_signal (s : State) : (s.hostReset).signal = none := rfl
@[simp] theorem hostReset_lastReg (s : State) : (s.hostReset).lastReg = none := rfl
@[simp] theorem hostReset_lastMem (s : State) : (s.hostReset).lastMem = none := rfl
@[simp] theorem hostReset_prog (s : State) : (s.hostReset).prog = s.prog := rfl
@[simp] theorem hostReset_memSize (s : State) : (s.hostReset).memSize = s.memSize := rfl
@[simp] theorem hostReset_ujExec (s : State) : (s.hostReset).ujExec = s.ujExec := rfl
@[simp] theorem hostReset_freeCount (s : State) : (s.hostReset).freeCount = s.freeCount := rfl

@[simp] theorem load_x (s : State) (p : Program) : (s.load p).x = Vector.replicate 31 0#32 := rfl
@[simp] theorem load_pc (s : State) (p : Program) : (s.load p).pc = 0#32 := rfl
@[simp] theorem load_phase (s : State) (p : Program) : (s.load p).phase = .ready := rfl
@[simp] theorem load_running (s : State) (p : Program) : (s.load p).running = false := rfl
@[simp] theorem load_mem (s : State) (p : Program) : (s.load p).mem = [] := rfl
@[simp] theorem load_diag (s : State) (p : Program) : (s.load p).diag = [] := rfl
@[simp] theorem load_faultRecord (s : State) (p : Program) : (s.load p).faultRecord = none := rfl
@[simp] theorem load_signal (s : State) (p : Program) : (s.load p).signal = none := rfl
@[simp] theorem load_lastReg (s : State) (p : Program) : (s.load p).lastReg = none := rfl
@[simp] theorem load_lastMem (s : State) (p : Program) : (s.load p).lastMem = none := rfl
@[simp] theorem load_prog (s : State) (p : Program) : (s.load p).prog = p := rfl
@[simp] theorem load_memSize (s : State) (p : Program) : (s.load p).memSize = s.memSize := rfl
@[simp] theorem load_ujExec (s : State) (p : Program) : (s.load p).ujExec = s.ujExec := rfl
@[simp] theorem load_freeCount (s : State) (p : Program) : (s.load p).freeCount = s.freeCount := rfl

/-! ## Derived reads follow the fields -/

theorem reg_of_x {s t : State} (h : t.x = s.x) (r : RegIdx) : t.reg r = s.reg r := by
  unfold State.reg
  rw [h]

theorem progLen_of_prog {s t : State} (h : t.prog = s.prog) : t.progLen = s.progLen := by
  unfold State.progLen
  rw [h]

theorem memWords_of_memSize {s t : State} (h : t.memSize = s.memSize) : t.memWords = s.memWords := by
  unfold State.memWords
  rw [h]

theorem fetch_of_prog_pc {s t : State} (h : t.prog = s.prog) (hp : t.pc = s.pc) : t.fetch = s.fetch := by
  unfold State.fetch
  rw [h, hp]

@[simp] theorem setReg_progLen (s : State) (r : RegIdx) (v : Word) : (s.setReg r v).progLen = s.progLen := progLen_of_prog (by simp)
@[simp] theorem setReg_memWords (s : State) (r : RegIdx) (v : Word) : (s.setReg r v).memWords = s.memWords := memWords_of_memSize (by simp)
@[simp] theorem setReg_fetch (s : State) (r : RegIdx) (v : Word) : (s.setReg r v).fetch = s.fetch := fetch_of_prog_pc (by simp) (by simp)
@[simp] theorem goTo_reg (s : State) (t : Word) (r' : RegIdx) : (s.goTo t).reg r' = s.reg r' := reg_of_x (by simp) r'
@[simp] theorem goTo_progLen (s : State) (t : Word) : (s.goTo t).progLen = s.progLen := progLen_of_prog (by simp)
@[simp] theorem goTo_memWords (s : State) (t : Word) : (s.goTo t).memWords = s.memWords := memWords_of_memSize (by simp)
@[simp] theorem advance_reg (s : State) (r' : RegIdx) : (s.advance).reg r' = s.reg r' := reg_of_x (by simp) r'
@[simp] theorem advance_progLen (s : State) : (s.advance).progLen = s.progLen := progLen_of_prog (by simp)
@[simp] theorem advance_memWords (s : State) : (s.advance).memWords = s.memWords := memWords_of_memSize (by simp)
@[simp] theorem finish_reg (s : State) (r' : RegIdx) : (s.finish).reg r' = s.reg r' := reg_of_x (by simp) r'
@[simp] theorem finish_progLen (s : State) : (s.finish).progLen = s.progLen := progLen_of_prog (by simp)
@[simp] theorem finish_memWords (s : State) : (s.finish).memWords = s.memWords := memWords_of_memSize (by simp)
@[simp] theorem finish_fetch (s : State) : (s.finish).fetch = s.fetch := fetch_of_prog_pc (by simp) (by simp)
@[simp] theorem stuck_reg (s : State) (r' : RegIdx) : (s.stuck).reg r' = s.reg r' := reg_of_x (by simp) r'
@[simp] theorem stuck_progLen (s : State) : (s.stuck).progLen = s.progLen := progLen_of_prog (by simp)
@[simp] theorem stuck_memWords (s : State) : (s.stuck).memWords = s.memWords := memWords_of_memSize (by simp)
@[simp] theorem stuck_fetch (s : State) : (s.stuck).fetch = s.fetch := fetch_of_prog_pc (by simp) (by simp)
@[simp] theorem observe_reg (s : State) (sig : Signal) (a : Option RegIdx) (b : Option Nat) (r' : RegIdx) : (s.observe sig a b).reg r' = s.reg r' := reg_of_x (by simp) r'
@[simp] theorem observe_progLen (s : State) (sig : Signal) (a : Option RegIdx) (b : Option Nat) : (s.observe sig a b).progLen = s.progLen := progLen_of_prog (by simp)
@[simp] theorem observe_memWords (s : State) (sig : Signal) (a : Option RegIdx) (b : Option Nat) : (s.observe sig a b).memWords = s.memWords := memWords_of_memSize (by simp)
@[simp] theorem observe_fetch (s : State) (sig : Signal) (a : Option RegIdx) (b : Option Nat) : (s.observe sig a b).fetch = s.fetch := fetch_of_prog_pc (by simp) (by simp)
@[simp] theorem observeFree_reg (s : State) (r' : RegIdx) : (s.observeFree).reg r' = s.reg r' := reg_of_x (by simp) r'
@[simp] theorem observeFree_progLen (s : State) : (s.observeFree).progLen = s.progLen := progLen_of_prog (by simp)
@[simp] theorem observeFree_memWords (s : State) : (s.observeFree).memWords = s.memWords := memWords_of_memSize (by simp)
@[simp] theorem observeFree_fetch (s : State) : (s.observeFree).fetch = s.fetch := fetch_of_prog_pc (by simp) (by simp)
@[simp] theorem commitReg_progLen (s : State) (rd : RegIdx) (v : Word) (sig : Option Signal) : (s.commitReg rd v sig).progLen = s.progLen := progLen_of_prog (by simp)
@[simp] theorem commitReg_memWords (s : State) (rd : RegIdx) (v : Word) (sig : Option Signal) : (s.commitReg rd v sig).memWords = s.memWords := memWords_of_memSize (by simp)
@[simp] theorem commitReg_fetch (s : State) (rd : RegIdx) (v : Word) (sig : Option Signal) : (s.commitReg rd v sig).fetch = s.fetch := fetch_of_prog_pc (by simp) (by simp)
@[simp] theorem raise_reg (s : State) (k : DiagKind) (r' : RegIdx) : (s.raise k).reg r' = s.reg r' := reg_of_x (by simp) r'
@[simp] theorem raise_progLen (s : State) (k : DiagKind) : (s.raise k).progLen = s.progLen := progLen_of_prog (by simp)
@[simp] theorem raise_memWords (s : State) (k : DiagKind) : (s.raise k).memWords = s.memWords := memWords_of_memSize (by simp)
@[simp] theorem faultMisaligned_reg (s : State) (t : Word) (r' : RegIdx) : (s.faultMisaligned t).reg r' = s.reg r' := reg_of_x (by simp) r'
@[simp] theorem faultMisaligned_progLen (s : State) (t : Word) : (s.faultMisaligned t).progLen = s.progLen := progLen_of_prog (by simp)
@[simp] theorem faultMisaligned_memWords (s : State) (t : Word) : (s.faultMisaligned t).memWords = s.memWords := memWords_of_memSize (by simp)
@[simp] theorem faultMisaligned_fetch (s : State) (t : Word) : (s.faultMisaligned t).fetch = s.fetch := fetch_of_prog_pc (by simp) (by simp)
@[simp] theorem halt_reg (s : State) (r' : RegIdx) : (s.halt).reg r' = s.reg r' := reg_of_x (by simp) r'
@[simp] theorem halt_progLen (s : State) : (s.halt).progLen = s.progLen := progLen_of_prog (by simp)
@[simp] theorem halt_memWords (s : State) : (s.halt).memWords = s.memWords := memWords_of_memSize (by simp)
@[simp] theorem halt_fetch (s : State) : (s.halt).fetch = s.fetch := fetch_of_prog_pc (by simp) (by simp)
@[simp] theorem startRun_reg (s : State) (r' : RegIdx) : (s.startRun).reg r' = s.reg r' := reg_of_x (by simp) r'
@[simp] theorem startRun_progLen (s : State) : (s.startRun).progLen = s.progLen := progLen_of_prog (by simp)
@[simp] theorem startRun_memWords (s : State) : (s.startRun).memWords = s.memWords := memWords_of_memSize (by simp)
@[simp] theorem startRun_fetch (s : State) : (s.startRun).fetch = s.fetch := fetch_of_prog_pc (by simp) (by simp)
@[simp] theorem stop_reg (s : State) (r' : RegIdx) : (s.stop).reg r' = s.reg r' := reg_of_x (by simp) r'
@[simp] theorem stop_progLen (s : State) : (s.stop).progLen = s.progLen := progLen_of_prog (by simp)
@[simp] theorem stop_memWords (s : State) : (s.stop).memWords = s.memWords := memWords_of_memSize (by simp)
@[simp] theorem stop_fetch (s : State) : (s.stop).fetch = s.fetch := fetch_of_prog_pc (by simp) (by simp)
@[simp] theorem settleRun_reg (s : State) (r' : RegIdx) : (s.settleRun).reg r' = s.reg r' := reg_of_x (by simp) r'
@[simp] theorem settleRun_progLen (s : State) : (s.settleRun).progLen = s.progLen := progLen_of_prog (by simp)
@[simp] theorem settleRun_memWords (s : State) : (s.settleRun).memWords = s.memWords := memWords_of_memSize (by simp)
@[simp] theorem settleRun_fetch (s : State) : (s.settleRun).fetch = s.fetch := fetch_of_prog_pc (by simp) (by simp)
@[simp] theorem hostReset_progLen (s : State) : (s.hostReset).progLen = s.progLen := progLen_of_prog (by simp)
@[simp] theorem hostReset_memWords (s : State) : (s.hostReset).memWords = s.memWords := memWords_of_memSize (by simp)
@[simp] theorem load_memWords (s : State) (p : Program) : (s.load p).memWords = s.memWords := memWords_of_memSize (by simp)
@[simp] theorem commitReg_reg (s : State) (rd : RegIdx) (v : Word) (sig : Option Signal) (r' : RegIdx) : (s.commitReg rd v sig).reg r' = (s.setReg rd v).reg r' := reg_of_x (by simp) r'

end Sys2Proof.Machine
end

