-- ==== Sys2Proof/Laws/Alu.lean ====
section
/-!
SUPPORT. What the ALU and the comparator compute, in the words of the rules (41_r_type_alu.md R160, R161;
44_branch.md R210).
-/

namespace Sys2Proof.Machine

/-- The shift amount is the operand modulo 32. -/
theorem shiftAmount_eq_mod (b : Word) : shiftAmount b = b.toNat % 32 := by
  simp [shiftAmount, BitVec.extractLsb'_toNat]

/-- A zero-extended 5-bit amount is the amount. -/
theorem shiftAmount_shamtWord (sh : BitVec 5) : shiftAmount (shamtWord sh) = sh.toNat := by
  rw [shiftAmount_eq_mod]
  simp [shamtWord]
  omega

theorem alu_slt_eq (a b : Word) : alu .slt a b = if a.toInt < b.toInt then 1#32 else 0#32 := by
  simp [alu, truthWord, signedLess, BitVec.slt]

theorem alu_sltu_eq (a b : Word) : alu .sltu a b = if a.toNat < b.toNat then 1#32 else 0#32 := by
  simp [alu, truthWord, unsignedLess, BitVec.ult]

theorem holds_eq_iff (a b : Word) : Comparator.holds .eq a b = true ↔ a = b := by simp [Comparator.holds]

theorem holds_ne_iff (a b : Word) : Comparator.holds .ne a b = true ↔ a ≠ b := by simp [Comparator.holds]

theorem holds_lt_iff (a b : Word) : Comparator.holds .lt a b = true ↔ a.toInt < b.toInt := by
  simp [Comparator.holds, signedLess, BitVec.slt]

theorem holds_ge_iff (a b : Word) : Comparator.holds .ge a b = true ↔ b.toInt ≤ a.toInt := by
  simp [Comparator.holds, signedLess, BitVec.slt]

theorem holds_ltu_iff (a b : Word) : Comparator.holds .ltu a b = true ↔ a.toNat < b.toNat := by
  simp [Comparator.holds, unsignedLess, BitVec.ult]

theorem holds_geu_iff (a b : Word) : Comparator.holds .geu a b = true ↔ b.toNat ≤ a.toNat := by
  simp [Comparator.holds, unsignedLess, BitVec.ult]

end Sys2Proof.Machine
end

