-- ==== Sys2Proof/Laws/Decode.lean ====
section
/-!
SUPPORT. The laws of the encodings: bit by bit what each format and each immediate holds, the fields read back from
each format, each format put together again from its fields, and the masks of the opcode map as tests on fields.
-/

namespace Sys2Proof

/-! ## Bits of the formats -/

theorem encodeR_bit (f7 : BitVec 7) (r2 r1 : BitVec 5) (f3 : BitVec 3) (rd : BitVec 5) (op : BitVec 7) (i : Nat) :
    (encodeR f7 r2 r1 f3 rd op).getLsbD i =
      if i < 7 then op.getLsbD i else if i < 12 then rd.getLsbD (i - 7) else if i < 15 then f3.getLsbD (i - 12)
      else if i < 20 then r1.getLsbD (i - 15) else if i < 25 then r2.getLsbD (i - 20) else f7.getLsbD (i - 25) := by
  change BitVec.getLsbD (w := 7 + (5 + (5 + (3 + (5 + 7))))) (f7 ++ (r2 ++ (r1 ++ (f3 ++ (rd ++ op))))) i = _
  simp only [BitVec.getLsbD_append]
  split_ifs <;> first | rfl | omega

theorem encodeI_bit (imm : BitVec 12) (r1 : BitVec 5) (f3 : BitVec 3) (rd : BitVec 5) (op : BitVec 7) (i : Nat) :
    (encodeI imm r1 f3 rd op).getLsbD i =
      if i < 7 then op.getLsbD i else if i < 12 then rd.getLsbD (i - 7) else if i < 15 then f3.getLsbD (i - 12)
      else if i < 20 then r1.getLsbD (i - 15) else imm.getLsbD (i - 20) := by
  change BitVec.getLsbD (w := 12 + (5 + (3 + (5 + 7)))) (imm ++ (r1 ++ (f3 ++ (rd ++ op)))) i = _
  simp only [BitVec.getLsbD_append]
  split_ifs <;> first | rfl | omega

theorem encodeS_bit (imm : BitVec 12) (r2 r1 : BitVec 5) (f3 : BitVec 3) (op : BitVec 7) (i : Nat) (hi : i < 32) :
    (encodeS imm r2 r1 f3 op).getLsbD i =
      if i < 7 then op.getLsbD i else if i < 12 then imm.getLsbD (i - 7) else if i < 15 then f3.getLsbD (i - 12)
      else if i < 20 then r1.getLsbD (i - 15) else if i < 25 then r2.getLsbD (i - 20) else imm.getLsbD (i - 20) := by
  change BitVec.getLsbD (w := 7 + (5 + (5 + (3 + (5 + 7)))))
    (imm.extractLsb' 5 7 ++ (r2 ++ (r1 ++ (f3 ++ (imm.extractLsb' 0 5 ++ op))))) i = _
  simp only [BitVec.getLsbD_append, BitVec.getLsbD_extractLsb']
  interval_cases i <;> simp

theorem encodeB_bit (imm : BitVec 13) (r2 r1 : BitVec 5) (f3 : BitVec 3) (op : BitVec 7) (i : Nat) (hi : i < 32) :
    (encodeB imm r2 r1 f3 op).getLsbD i =
      if i < 7 then op.getLsbD i else if i < 8 then imm.getLsbD 11 else if i < 12 then imm.getLsbD (i - 7)
      else if i < 15 then f3.getLsbD (i - 12) else if i < 20 then r1.getLsbD (i - 15)
      else if i < 25 then r2.getLsbD (i - 20) else if i < 31 then imm.getLsbD (i - 20) else imm.getLsbD 12 := by
  change BitVec.getLsbD (w := 1 + (6 + (5 + (5 + (3 + (4 + (1 + 7)))))))
    (imm.extractLsb' 12 1 ++ (imm.extractLsb' 5 6 ++ (r2 ++ (r1 ++ (f3 ++
      (imm.extractLsb' 1 4 ++ (imm.extractLsb' 11 1 ++ op))))))) i = _
  simp only [BitVec.getLsbD_append, BitVec.getLsbD_extractLsb']
  interval_cases i <;> simp

theorem encodeU_bit (imm20 : BitVec 20) (rd : BitVec 5) (op : BitVec 7) (i : Nat) :
    (encodeU imm20 rd op).getLsbD i =
      if i < 7 then op.getLsbD i else if i < 12 then rd.getLsbD (i - 7) else imm20.getLsbD (i - 12) := by
  change BitVec.getLsbD (w := 20 + (5 + 7)) (imm20 ++ (rd ++ op)) i = _
  simp only [BitVec.getLsbD_append]
  split_ifs <;> first | rfl | omega

theorem encodeJ_bit (imm : BitVec 21) (rd : BitVec 5) (op : BitVec 7) (i : Nat) (hi : i < 32) :
    (encodeJ imm rd op).getLsbD i =
      if i < 7 then op.getLsbD i else if i < 12 then rd.getLsbD (i - 7) else if i < 20 then imm.getLsbD i
      else if i < 21 then imm.getLsbD 11 else if i < 31 then imm.getLsbD (i - 20) else imm.getLsbD 20 := by
  change BitVec.getLsbD (w := 1 + (10 + (1 + (8 + (5 + 7)))))
    (imm.extractLsb' 20 1 ++ (imm.extractLsb' 1 10 ++ (imm.extractLsb' 11 1 ++ (imm.extractLsb' 12 8 ++ (rd ++ op))))) i = _
  simp only [BitVec.getLsbD_append, BitVec.getLsbD_extractLsb']
  interval_cases i <;> simp

/-! ## Bits of the split immediates -/

theorem immSOf_bit (w : Word) (i : Nat) (hi : i < 12) :
    (immSOf w).getLsbD i = if i < 5 then w.getLsbD (i + 7) else w.getLsbD (i + 20) := by
  change BitVec.getLsbD (w := 7 + 5) (w.extractLsb' 25 7 ++ w.extractLsb' 7 5) i = _
  simp only [BitVec.getLsbD_append, BitVec.getLsbD_extractLsb']
  interval_cases i <;> simp

theorem immBOf_bit (w : Word) (i : Nat) (hi : i < 13) :
    (immBOf w).getLsbD i =
      if i < 1 then false else if i < 5 then w.getLsbD (i + 7) else if i < 11 then w.getLsbD (i + 20)
      else if i < 12 then w.getLsbD 7 else w.getLsbD 31 := by
  change BitVec.getLsbD (w := 1 + (1 + (6 + (4 + 1))))
    (w.extractLsb' 31 1 ++ (w.extractLsb' 7 1 ++ (w.extractLsb' 25 6 ++ (w.extractLsb' 8 4 ++ 0#1)))) i = _
  simp only [BitVec.getLsbD_append, BitVec.getLsbD_extractLsb']
  interval_cases i <;> simp

theorem immJOf_bit (w : Word) (i : Nat) (hi : i < 21) :
    (immJOf w).getLsbD i =
      if i < 1 then false else if i < 11 then w.getLsbD (i + 20) else if i < 12 then w.getLsbD 20
      else if i < 20 then w.getLsbD i else w.getLsbD 31 := by
  change BitVec.getLsbD (w := 1 + (8 + (1 + (10 + 1))))
    (w.extractLsb' 31 1 ++ (w.extractLsb' 12 8 ++ (w.extractLsb' 20 1 ++ (w.extractLsb' 21 10 ++ 0#1)))) i = _
  simp only [BitVec.getLsbD_append, BitVec.getLsbD_extractLsb']
  interval_cases i <;> simp

/-! ## The fields of each format -/

@[simp] theorem opcodeOf_encodeR (f7 : BitVec 7) (r2 r1 : BitVec 5) (f3 : BitVec 3) (rd : BitVec 5) (op : BitVec 7) :
    opcodeOf (encodeR f7 r2 r1 f3 rd op) = op := by
  apply BitVec.eq_of_getLsbD_eq
  intro i hi
  simp only [opcodeOf, BitVec.getLsbD_extractLsb']
  interval_cases i <;> simp [-BitVec.getLsbD_eq_getElem, encodeR_bit]

@[simp] theorem rdOf_encodeR (f7 : BitVec 7) (r2 r1 : BitVec 5) (f3 : BitVec 3) (rd : BitVec 5) (op : BitVec 7) :
    rdOf (encodeR f7 r2 r1 f3 rd op) = rd := by
  apply BitVec.eq_of_getLsbD_eq
  intro i hi
  simp only [rdOf, BitVec.getLsbD_extractLsb']
  interval_cases i <;> simp [-BitVec.getLsbD_eq_getElem, encodeR_bit]

@[simp] theorem funct3Of_encodeR (f7 : BitVec 7) (r2 r1 : BitVec 5) (f3 : BitVec 3) (rd : BitVec 5) (op : BitVec 7) :
    funct3Of (encodeR f7 r2 r1 f3 rd op) = f3 := by
  apply BitVec.eq_of_getLsbD_eq
  intro i hi
  simp only [funct3Of, BitVec.getLsbD_extractLsb']
  interval_cases i <;> simp [-BitVec.getLsbD_eq_getElem, encodeR_bit]

@[simp] theorem rs1Of_encodeR (f7 : BitVec 7) (r2 r1 : BitVec 5) (f3 : BitVec 3) (rd : BitVec 5) (op : BitVec 7) :
    rs1Of (encodeR f7 r2 r1 f3 rd op) = r1 := by
  apply BitVec.eq_of_getLsbD_eq
  intro i hi
  simp only [rs1Of, BitVec.getLsbD_extractLsb']
  interval_cases i <;> simp [-BitVec.getLsbD_eq_getElem, encodeR_bit]

@[simp] theorem rs2Of_encodeR (f7 : BitVec 7) (r2 r1 : BitVec 5) (f3 : BitVec 3) (rd : BitVec 5) (op : BitVec 7) :
    rs2Of (encodeR f7 r2 r1 f3 rd op) = r2 := by
  apply BitVec.eq_of_getLsbD_eq
  intro i hi
  simp only [rs2Of, BitVec.getLsbD_extractLsb']
  interval_cases i <;> simp [-BitVec.getLsbD_eq_getElem, encodeR_bit]

@[simp] theorem shamtOf_encodeR (f7 : BitVec 7) (r2 r1 : BitVec 5) (f3 : BitVec 3) (rd : BitVec 5) (op : BitVec 7) :
    shamtOf (encodeR f7 r2 r1 f3 rd op) = r2 := by
  apply BitVec.eq_of_getLsbD_eq
  intro i hi
  simp only [shamtOf, BitVec.getLsbD_extractLsb']
  interval_cases i <;> simp [-BitVec.getLsbD_eq_getElem, encodeR_bit]

@[simp] theorem funct7Of_encodeR (f7 : BitVec 7) (r2 r1 : BitVec 5) (f3 : BitVec 3) (rd : BitVec 5) (op : BitVec 7) :
    funct7Of (encodeR f7 r2 r1 f3 rd op) = f7 := by
  apply BitVec.eq_of_getLsbD_eq
  intro i hi
  simp only [funct7Of, BitVec.getLsbD_extractLsb']
  interval_cases i <;> simp [-BitVec.getLsbD_eq_getElem, encodeR_bit]

@[simp] theorem opcodeOf_encodeI (imm : BitVec 12) (r1 : BitVec 5) (f3 : BitVec 3) (rd : BitVec 5) (op : BitVec 7) :
    opcodeOf (encodeI imm r1 f3 rd op) = op := by
  apply BitVec.eq_of_getLsbD_eq
  intro i hi
  simp only [opcodeOf, BitVec.getLsbD_extractLsb']
  interval_cases i <;> simp [-BitVec.getLsbD_eq_getElem, encodeI_bit]

@[simp] theorem rdOf_encodeI (imm : BitVec 12) (r1 : BitVec 5) (f3 : BitVec 3) (rd : BitVec 5) (op : BitVec 7) :
    rdOf (encodeI imm r1 f3 rd op) = rd := by
  apply BitVec.eq_of_getLsbD_eq
  intro i hi
  simp only [rdOf, BitVec.getLsbD_extractLsb']
  interval_cases i <;> simp [-BitVec.getLsbD_eq_getElem, encodeI_bit]

@[simp] theorem funct3Of_encodeI (imm : BitVec 12) (r1 : BitVec 5) (f3 : BitVec 3) (rd : BitVec 5) (op : BitVec 7) :
    funct3Of (encodeI imm r1 f3 rd op) = f3 := by
  apply BitVec.eq_of_getLsbD_eq
  intro i hi
  simp only [funct3Of, BitVec.getLsbD_extractLsb']
  interval_cases i <;> simp [-BitVec.getLsbD_eq_getElem, encodeI_bit]

@[simp] theorem rs1Of_encodeI (imm : BitVec 12) (r1 : BitVec 5) (f3 : BitVec 3) (rd : BitVec 5) (op : BitVec 7) :
    rs1Of (encodeI imm r1 f3 rd op) = r1 := by
  apply BitVec.eq_of_getLsbD_eq
  intro i hi
  simp only [rs1Of, BitVec.getLsbD_extractLsb']
  interval_cases i <;> simp [-BitVec.getLsbD_eq_getElem, encodeI_bit]

@[simp] theorem immIOf_encodeI (imm : BitVec 12) (r1 : BitVec 5) (f3 : BitVec 3) (rd : BitVec 5) (op : BitVec 7) :
    immIOf (encodeI imm r1 f3 rd op) = imm := by
  apply BitVec.eq_of_getLsbD_eq
  intro i hi
  simp only [immIOf, BitVec.getLsbD_extractLsb']
  interval_cases i <;> simp [-BitVec.getLsbD_eq_getElem, encodeI_bit]

@[simp] theorem opcodeOf_encodeS (imm : BitVec 12) (r2 r1 : BitVec 5) (f3 : BitVec 3) (op : BitVec 7) :
    opcodeOf (encodeS imm r2 r1 f3 op) = op := by
  apply BitVec.eq_of_getLsbD_eq
  intro i hi
  simp only [opcodeOf, BitVec.getLsbD_extractLsb']
  interval_cases i <;> simp [-BitVec.getLsbD_eq_getElem, encodeS_bit]

@[simp] theorem funct3Of_encodeS (imm : BitVec 12) (r2 r1 : BitVec 5) (f3 : BitVec 3) (op : BitVec 7) :
    funct3Of (encodeS imm r2 r1 f3 op) = f3 := by
  apply BitVec.eq_of_getLsbD_eq
  intro i hi
  simp only [funct3Of, BitVec.getLsbD_extractLsb']
  interval_cases i <;> simp [-BitVec.getLsbD_eq_getElem, encodeS_bit]

@[simp] theorem rs1Of_encodeS (imm : BitVec 12) (r2 r1 : BitVec 5) (f3 : BitVec 3) (op : BitVec 7) :
    rs1Of (encodeS imm r2 r1 f3 op) = r1 := by
  apply BitVec.eq_of_getLsbD_eq
  intro i hi
  simp only [rs1Of, BitVec.getLsbD_extractLsb']
  interval_cases i <;> simp [-BitVec.getLsbD_eq_getElem, encodeS_bit]

@[simp] theorem rs2Of_encodeS (imm : BitVec 12) (r2 r1 : BitVec 5) (f3 : BitVec 3) (op : BitVec 7) :
    rs2Of (encodeS imm r2 r1 f3 op) = r2 := by
  apply BitVec.eq_of_getLsbD_eq
  intro i hi
  simp only [rs2Of, BitVec.getLsbD_extractLsb']
  interval_cases i <;> simp [-BitVec.getLsbD_eq_getElem, encodeS_bit]

@[simp] theorem immSOf_encodeS (imm : BitVec 12) (r2 r1 : BitVec 5) (f3 : BitVec 3) (op : BitVec 7) :
    immSOf (encodeS imm r2 r1 f3 op) = imm := by
  apply BitVec.eq_of_getLsbD_eq
  intro i hi
  simp only [immSOf_bit _ i hi]
  interval_cases i <;> simp [-BitVec.getLsbD_eq_getElem, encodeS_bit]

@[simp] theorem opcodeOf_encodeB (imm : BitVec 13) (r2 r1 : BitVec 5) (f3 : BitVec 3) (op : BitVec 7) :
    opcodeOf (encodeB imm r2 r1 f3 op) = op := by
  apply BitVec.eq_of_getLsbD_eq
  intro i hi
  simp only [opcodeOf, BitVec.getLsbD_extractLsb']
  interval_cases i <;> simp [-BitVec.getLsbD_eq_getElem, encodeB_bit]

@[simp] theorem funct3Of_encodeB (imm : BitVec 13) (r2 r1 : BitVec 5) (f3 : BitVec 3) (op : BitVec 7) :
    funct3Of (encodeB imm r2 r1 f3 op) = f3 := by
  apply BitVec.eq_of_getLsbD_eq
  intro i hi
  simp only [funct3Of, BitVec.getLsbD_extractLsb']
  interval_cases i <;> simp [-BitVec.getLsbD_eq_getElem, encodeB_bit]

@[simp] theorem rs1Of_encodeB (imm : BitVec 13) (r2 r1 : BitVec 5) (f3 : BitVec 3) (op : BitVec 7) :
    rs1Of (encodeB imm r2 r1 f3 op) = r1 := by
  apply BitVec.eq_of_getLsbD_eq
  intro i hi
  simp only [rs1Of, BitVec.getLsbD_extractLsb']
  interval_cases i <;> simp [-BitVec.getLsbD_eq_getElem, encodeB_bit]

@[simp] theorem rs2Of_encodeB (imm : BitVec 13) (r2 r1 : BitVec 5) (f3 : BitVec 3) (op : BitVec 7) :
    rs2Of (encodeB imm r2 r1 f3 op) = r2 := by
  apply BitVec.eq_of_getLsbD_eq
  intro i hi
  simp only [rs2Of, BitVec.getLsbD_extractLsb']
  interval_cases i <;> simp [-BitVec.getLsbD_eq_getElem, encodeB_bit]

@[simp] theorem opcodeOf_encodeU (imm20 : BitVec 20) (rd : BitVec 5) (op : BitVec 7) :
    opcodeOf (encodeU imm20 rd op) = op := by
  apply BitVec.eq_of_getLsbD_eq
  intro i hi
  simp only [opcodeOf, BitVec.getLsbD_extractLsb']
  interval_cases i <;> simp [-BitVec.getLsbD_eq_getElem, encodeU_bit]

@[simp] theorem rdOf_encodeU (imm20 : BitVec 20) (rd : BitVec 5) (op : BitVec 7) :
    rdOf (encodeU imm20 rd op) = rd := by
  apply BitVec.eq_of_getLsbD_eq
  intro i hi
  simp only [rdOf, BitVec.getLsbD_extractLsb']
  interval_cases i <;> simp [-BitVec.getLsbD_eq_getElem, encodeU_bit]

@[simp] theorem imm20Of_encodeU (imm20 : BitVec 20) (rd : BitVec 5) (op : BitVec 7) :
    imm20Of (encodeU imm20 rd op) = imm20 := by
  apply BitVec.eq_of_getLsbD_eq
  intro i hi
  simp only [imm20Of, BitVec.getLsbD_extractLsb']
  interval_cases i <;> simp [-BitVec.getLsbD_eq_getElem, encodeU_bit]

@[simp] theorem opcodeOf_encodeJ (imm : BitVec 21) (rd : BitVec 5) (op : BitVec 7) :
    opcodeOf (encodeJ imm rd op) = op := by
  apply BitVec.eq_of_getLsbD_eq
  intro i hi
  simp only [opcodeOf, BitVec.getLsbD_extractLsb']
  interval_cases i <;> simp [-BitVec.getLsbD_eq_getElem, encodeJ_bit]

@[simp] theorem rdOf_encodeJ (imm : BitVec 21) (rd : BitVec 5) (op : BitVec 7) :
    rdOf (encodeJ imm rd op) = rd := by
  apply BitVec.eq_of_getLsbD_eq
  intro i hi
  simp only [rdOf, BitVec.getLsbD_extractLsb']
  interval_cases i <;> simp [-BitVec.getLsbD_eq_getElem, encodeJ_bit]

theorem immBOf_encodeB (imm : BitVec 13) (r2 r1 : BitVec 5) (f3 : BitVec 3) (op : BitVec 7)
    (h : evenB imm = true) : immBOf (encodeB imm r2 r1 f3 op) = imm := by
  have h0 : imm.getLsbD 0 = false := by simpa [evenB] using h
  apply BitVec.eq_of_getLsbD_eq
  intro i hi
  simp only [immBOf_bit _ i hi]
  interval_cases i <;> first | exact h0.symm | simp [-BitVec.getLsbD_eq_getElem, encodeB_bit]

theorem immJOf_encodeJ (imm : BitVec 21) (rd : BitVec 5) (op : BitVec 7)
    (h : evenJ imm = true) : immJOf (encodeJ imm rd op) = imm := by
  have h0 : imm.getLsbD 0 = false := by simpa [evenJ] using h
  apply BitVec.eq_of_getLsbD_eq
  intro i hi
  simp only [immJOf_bit _ i hi]
  interval_cases i <;> first | exact h0.symm | simp [-BitVec.getLsbD_eq_getElem, encodeJ_bit]

/-! ## Each format from its fields -/

theorem encodeR_fields (w : Word) :
    encodeR (funct7Of w) (rs2Of w) (rs1Of w) (funct3Of w) (rdOf w) (opcodeOf w) = w := by
  apply BitVec.eq_of_getLsbD_eq
  intro i hi
  rw [encodeR_bit]
  simp only [funct7Of, rs2Of, rs1Of, funct3Of, rdOf, opcodeOf, BitVec.getLsbD_extractLsb']
  interval_cases i <;> simp [-BitVec.getLsbD_eq_getElem]

theorem encodeI_fields (w : Word) :
    encodeI (immIOf w) (rs1Of w) (funct3Of w) (rdOf w) (opcodeOf w) = w := by
  apply BitVec.eq_of_getLsbD_eq
  intro i hi
  rw [encodeI_bit]
  simp only [immIOf, rs1Of, funct3Of, rdOf, opcodeOf, BitVec.getLsbD_extractLsb']
  interval_cases i <;> simp [-BitVec.getLsbD_eq_getElem]

theorem encodeS_fields (w : Word) :
    encodeS (immSOf w) (rs2Of w) (rs1Of w) (funct3Of w) (opcodeOf w) = w := by
  apply BitVec.eq_of_getLsbD_eq
  intro i hi
  rw [encodeS_bit _ _ _ _ _ i hi]
  simp only [rs2Of, rs1Of, funct3Of, opcodeOf, BitVec.getLsbD_extractLsb']
  interval_cases i <;> simp [-BitVec.getLsbD_eq_getElem, immSOf_bit]

theorem encodeB_fields (w : Word) :
    encodeB (immBOf w) (rs2Of w) (rs1Of w) (funct3Of w) (opcodeOf w) = w := by
  apply BitVec.eq_of_getLsbD_eq
  intro i hi
  rw [encodeB_bit _ _ _ _ _ i hi]
  simp only [rs2Of, rs1Of, funct3Of, opcodeOf, BitVec.getLsbD_extractLsb']
  interval_cases i <;> simp [-BitVec.getLsbD_eq_getElem, immBOf_bit]

theorem encodeU_fields (w : Word) : encodeU (imm20Of w) (rdOf w) (opcodeOf w) = w := by
  apply BitVec.eq_of_getLsbD_eq
  intro i hi
  rw [encodeU_bit]
  simp only [imm20Of, rdOf, opcodeOf, BitVec.getLsbD_extractLsb']
  interval_cases i <;> simp [-BitVec.getLsbD_eq_getElem]

theorem encodeJ_fields (w : Word) : encodeJ (immJOf w) (rdOf w) (opcodeOf w) = w := by
  apply BitVec.eq_of_getLsbD_eq
  intro i hi
  rw [encodeJ_bit _ _ _ i hi]
  simp only [rdOf, opcodeOf, BitVec.getLsbD_extractLsb']
  interval_cases i <;> simp [-BitVec.getLsbD_eq_getElem, immJOf_bit]

/-! ## A displacement read from a word is even -/

theorem evenB_immBOf (w : Word) : evenB (immBOf w) = true := by
  unfold evenB
  rw [immBOf_bit w 0 (by omega)]
  rfl

theorem evenJ_immJOf (w : Word) : evenJ (immJOf w) = true := by
  unfold evenJ
  rw [immJOf_bit w 0 (by omega)]
  rfl

/-! ## The masks of the opcode map as tests on fields -/

/-- The mask of R96: opcode, funct3 and funct7. -/
theorem and_maskR (w : Word) : w &&& 0xFE00707F#32 = encodeR (funct7Of w) 0#5 0#5 (funct3Of w) 0#5 (opcodeOf w) := by
  apply BitVec.eq_of_getLsbD_eq
  intro i hi
  rw [encodeR_bit, BitVec.getLsbD_and]
  simp only [funct7Of, funct3Of, opcodeOf, BitVec.getLsbD_extractLsb']
  interval_cases i <;> simp [-BitVec.getLsbD_eq_getElem]

/-- The mask of R97 to R99: opcode and funct3. -/
theorem and_maskI (w : Word) : w &&& 0x0000707F#32 = encodeI 0#12 0#5 (funct3Of w) 0#5 (opcodeOf w) := by
  apply BitVec.eq_of_getLsbD_eq
  intro i hi
  rw [encodeI_bit, BitVec.getLsbD_and]
  simp only [funct3Of, opcodeOf, BitVec.getLsbD_extractLsb']
  interval_cases i <;> simp [-BitVec.getLsbD_eq_getElem]

/-- The mask of R100: opcode. -/
theorem and_maskU (w : Word) : w &&& 0x0000007F#32 = encodeU 0#20 0#5 (opcodeOf w) := by
  apply BitVec.eq_of_getLsbD_eq
  intro i hi
  rw [encodeU_bit, BitVec.getLsbD_and]
  simp only [opcodeOf, BitVec.getLsbD_extractLsb']
  interval_cases i <;> simp [-BitVec.getLsbD_eq_getElem]

/-- A word matches a row of mask R96 exactly when its funct7, funct3 and opcode are the row's. -/
theorem maskR_eq_iff (w : Word) (f7 : BitVec 7) (f3 : BitVec 3) (op : BitVec 7) :
    w &&& 0xFE00707F#32 = encodeR f7 0#5 0#5 f3 0#5 op ↔ funct7Of w = f7 ∧ funct3Of w = f3 ∧ opcodeOf w = op := by
  rw [and_maskR]
  constructor
  · intro h
    exact ⟨by simpa using congrArg funct7Of h, by simpa using congrArg funct3Of h, by simpa using congrArg opcodeOf h⟩
  · rintro ⟨rfl, rfl, rfl⟩
    rfl

/-- A word matches a row of mask R97 to R99 exactly when its funct3 and opcode are the row's. -/
theorem maskI_eq_iff (w : Word) (f3 : BitVec 3) (op : BitVec 7) :
    w &&& 0x0000707F#32 = encodeI 0#12 0#5 f3 0#5 op ↔ funct3Of w = f3 ∧ opcodeOf w = op := by
  rw [and_maskI]
  constructor
  · intro h
    exact ⟨by simpa using congrArg funct3Of h, by simpa using congrArg opcodeOf h⟩
  · rintro ⟨rfl, rfl⟩
    rfl

/-- A word matches a row of mask R100 exactly when its opcode is the row's. -/
theorem maskU_eq_iff (w : Word) (op : BitVec 7) :
    w &&& 0x0000007F#32 = encodeU 0#20 0#5 op ↔ opcodeOf w = op := by
  rw [and_maskU]
  constructor
  · intro h
    simpa using congrArg opcodeOf h
  · rintro rfl
    rfl

/-! ## Selection -/

/-- A word other than HALT_WORD is decoded by its major opcode. -/
theorem haltWord_eq_encodeB : Config.haltWord = encodeB 0#13 0#5 0#5 0b000#3 0b1100011#7 := by decide

/-- A word whose major opcode is not the branches' is not HALT_WORD. -/
theorem ne_haltWord_of_opcode {w : Word} (h : opcodeOf w ≠ 0b1100011#7) : w ≠ Config.haltWord := by
  rintro rfl
  exact h (by decide)

/-- A branch word whose funct3 is not `beq`'s is not HALT_WORD. -/
theorem ne_haltWord_of_funct3 {w : Word} (h : funct3Of w ≠ 0b000#3) : w ≠ Config.haltWord := by
  rintro rfl
  exact h (by decide)

end Sys2Proof
end

