-- ==== Sys2Proof/Laws/Memory.lean ====
section
/-!
SUPPORT. The laws of the data memory: a write is read back, leaves every other byte and word alone, keeps the
canonical form and stays inside the array; and the laws of the registers.
-/

namespace Sys2Proof.Machine

/-! ## Bytes -/

/-- A write leaves every other byte alone, whatever the list. -/
theorem readByte_writeByte_of_ne (m : Memory) {a b : Nat} (v : Byte) (h : b ≠ a) :
    (m.writeByte a v).readByte b = m.readByte b := by
  induction m with
  | nil =>
    unfold Memory.writeByte
    split
    · rfl
    · simp [Memory.readByte, h.symm]
  | cons c m ih =>
    obtain ⟨k, x⟩ := c
    simp only [Memory.writeByte]
    by_cases hk : k = a
    · subst hk
      rw [if_pos rfl]
      split <;> simp [Memory.readByte, h.symm]
    · rw [if_neg hk]
      split_ifs
      · rfl
      · simp [Memory.readByte, h.symm]
      · simp [Memory.readByte, ih]

/-- Below its lower bound a canonical memory lists nothing. -/
theorem readByte_of_lt {m : Memory} {lo a : Nat} (h : m.wfFrom lo = true) (ha : a < lo) :
    m.readByte a = Config.unlistedByte := by
  induction m generalizing lo with
  | nil => rfl
  | cons c m ih =>
    obtain ⟨k, x⟩ := c
    simp only [Memory.wfFrom, Bool.and_eq_true, decide_eq_true_eq] at h
    have hk : k ≠ a := by omega
    rw [Memory.readByte, if_neg hk]
    exact ih h.2 (by omega)

/-- A write is read back. -/
theorem readByte_writeByte_same {m : Memory} {lo a : Nat} (v : Byte) (h : m.wfFrom lo = true) (ha : lo ≤ a) :
    (m.writeByte a v).readByte a = v := by
  induction m generalizing lo with
  | nil =>
    unfold Memory.writeByte
    split
    · next hv => simp [Memory.readByte, hv]
    · simp [Memory.readByte]
  | cons c m ih =>
    obtain ⟨k, x⟩ := c
    simp only [Memory.wfFrom, Bool.and_eq_true, decide_eq_true_eq] at h
    simp only [Memory.writeByte]
    by_cases hk : k = a
    · subst hk
      rw [if_pos rfl]
      split
      · next hv => rw [hv]; exact readByte_of_lt h.2 (by omega)
      · simp [Memory.readByte]
    · rw [if_neg hk]
      by_cases hlt : a < k
      · rw [if_pos hlt]
        split
        · next hv =>
          rw [Memory.readByte, if_neg hk, hv]
          exact readByte_of_lt h.2 (by omega)
        · simp [Memory.readByte]
      · rw [if_neg hlt, Memory.readByte, if_neg hk]
        exact ih h.2 (by omega)

/-- A larger lower bound is the stronger canonical form. -/
theorem wfFrom_mono {m : Memory} {lo lo' : Nat} (h : m.wfFrom lo = true) (hl : lo' ≤ lo) : m.wfFrom lo' = true := by
  cases m with
  | nil => rfl
  | cons c m =>
    simp only [Memory.wfFrom, Bool.and_eq_true, decide_eq_true_eq] at h ⊢
    exact ⟨⟨by omega, h.1.2⟩, h.2⟩

/-- A write keeps the canonical form. -/
theorem writeByte_wfFrom {m : Memory} {lo a : Nat} (v : Byte) (h : m.wfFrom lo = true) (ha : lo ≤ a) :
    (m.writeByte a v).wfFrom lo = true := by
  induction m generalizing lo with
  | nil =>
    unfold Memory.writeByte
    split
    · rfl
    · next hv => simp [Memory.wfFrom, ha, hv]
  | cons c m ih =>
    obtain ⟨k, x⟩ := c
    have hc := h
    simp only [Memory.wfFrom, Bool.and_eq_true, decide_eq_true_eq] at h
    simp only [Memory.writeByte]
    by_cases hk : k = a
    · subst hk
      rw [if_pos rfl]
      split
      · exact wfFrom_mono h.2 (by omega)
      · next hv => simp [Memory.wfFrom, ha, hv, h.2]
    · rw [if_neg hk]
      by_cases hlt : a < k
      · rw [if_pos hlt]
        split
        · exact hc
        · next hv =>
          have h2 : Memory.wfFrom (a + 1) ((k, x) :: m) = true := by
            simp only [Memory.wfFrom, Bool.and_eq_true, decide_eq_true_eq]
            exact ⟨⟨by omega, h.1.2⟩, h.2⟩
          simp only [Memory.wfFrom, Bool.and_eq_true, decide_eq_true_eq] at h2 ⊢
          exact ⟨⟨ha, by simpa using hv⟩, h2⟩
      · rw [if_neg hlt]
        simp only [Memory.wfFrom, Bool.and_eq_true, decide_eq_true_eq]
        exact ⟨h.1, ih h.2 (by omega)⟩

/-- A write below `top` keeps every cell below `top`. -/
theorem writeByte_below {m : Memory} {a top : Nat} (v : Byte) (h : m.below top = true) (ha : a < top) :
    (m.writeByte a v).below top = true := by
  induction m with
  | nil =>
    unfold Memory.writeByte
    split <;> simp [Memory.below, ha]
  | cons c m ih =>
    obtain ⟨k, x⟩ := c
    have hm : Memory.below m top = true := by
      simp only [Memory.below, List.all_cons, Bool.and_eq_true] at h ⊢
      exact h.2
    have hk : k < top := by
      simp only [Memory.below, List.all_cons, Bool.and_eq_true, decide_eq_true_eq] at h
      exact h.1
    have hcons : ∀ (j : Nat) (y : Byte) (l : Memory), j < top → Memory.below l top = true →
        Memory.below ((j, y) :: l) top = true := by
      intro j y l hj hl
      simp only [Memory.below, List.all_cons, Bool.and_eq_true, decide_eq_true_eq] at hl ⊢
      exact ⟨hj, hl⟩
    simp only [Memory.writeByte]
    split_ifs
    · exact hm
    · exact hcons _ _ _ ha hm
    · exact h
    · exact hcons _ _ _ ha h
    · exact hcons _ _ _ hk (ih hm)

/-! ## Words -/

/-- The four bytes of a word, put together again. -/
theorem word_of_its_bytes (v : Word) :
    (v.extractLsb' 24 8 ++ (v.extractLsb' 16 8 ++ (v.extractLsb' 8 8 ++ v.extractLsb' 0 8)) : Word) = v := by
  apply BitVec.eq_of_getLsbD_eq
  intro i hi
  simp only [BitVec.getLsbD_append, BitVec.getLsbD_extractLsb']
  interval_cases i <;> simp

/-- A word write keeps the canonical form. -/
theorem writeWord_wf {m : Memory} (i : Nat) (v : Word) (h : m.wf = true) : (m.writeWord i v).wf = true :=
  writeByte_wfFrom _ (writeByte_wfFrom _ (writeByte_wfFrom _ (writeByte_wfFrom _ h (by omega)) (by omega))
    (by omega)) (by omega)

/-- A word write inside the array keeps every cell inside it. -/
theorem writeWord_below {m : Memory} {i n : Nat} (v : Word) (h : m.below (4 * n) = true) (hi : i < n) :
    (m.writeWord i v).below (4 * n) = true :=
  writeByte_below _ (writeByte_below _ (writeByte_below _ (writeByte_below _ h (by omega)) (by omega))
    (by omega)) (by omega)

/-- A word write leaves every byte outside the word alone. -/
theorem readByte_writeWord_of_outside (m : Memory) {i a : Nat} (v : Word) (h : a < 4 * i ∨ 4 * i + 4 ≤ a) :
    (m.writeWord i v).readByte a = m.readByte a := by
  unfold Memory.writeWord
  rw [readByte_writeByte_of_ne _ _ (by omega), readByte_writeByte_of_ne _ _ (by omega),
    readByte_writeByte_of_ne _ _ (by omega), readByte_writeByte_of_ne _ _ (by omega)]

/-- A word write leaves every other word alone. -/
theorem readWord_writeWord_of_ne (m : Memory) {i j : Nat} (v : Word) (h : j ≠ i) :
    (m.writeWord i v).readWord j = m.readWord j := by
  unfold Memory.readWord
  rw [readByte_writeWord_of_outside _ _ (by omega), readByte_writeWord_of_outside _ _ (by omega),
    readByte_writeWord_of_outside _ _ (by omega), readByte_writeWord_of_outside _ _ (by omega)]

/-- A word is read back as it was written. -/
theorem readWord_writeWord_same {m : Memory} (i : Nat) (v : Word) (h : m.wf = true) :
    (m.writeWord i v).readWord i = v := by
  have h0 : (m.writeByte (4 * i) (v.extractLsb' 0 8)).wfFrom 0 = true := writeByte_wfFrom _ h (by omega)
  have h1 := writeByte_wfFrom (a := 4 * i + 1) (v.extractLsb' 8 8) h0 (by omega)
  have h2 := writeByte_wfFrom (a := 4 * i + 2) (v.extractLsb' 16 8) h1 (by omega)
  unfold Memory.readWord Memory.writeWord
  rw [readByte_writeByte_same _ h2 (by omega),
    readByte_writeByte_of_ne (b := 4 * i + 2) _ _ (by omega), readByte_writeByte_same _ h1 (by omega),
    readByte_writeByte_of_ne (b := 4 * i + 1) _ _ (by omega), readByte_writeByte_of_ne (b := 4 * i + 1) _ _ (by omega),
    readByte_writeByte_same _ h0 (by omega),
    readByte_writeByte_of_ne (b := 4 * i) _ _ (by omega), readByte_writeByte_of_ne (b := 4 * i) _ _ (by omega),
    readByte_writeByte_of_ne (b := 4 * i) _ _ (by omega), readByte_writeByte_same _ h (by omega)]
  exact word_of_its_bytes v

/-! ## Access through the bounds check -/

/-- R54 in numbers. -/
theorem admits_iff (s : State) (ea : Word) : s.admits ea = true ↔ ea.toNat < 4 * s.memSize.words := decide_eq_true_iff

theorem rejects_iff (s : State) (ea : Word) : s.admits ea = false ↔ 4 * s.memSize.words ≤ ea.toNat :=
  decide_eq_false_iff_not.trans Nat.not_lt

theorem memRead_of_admits {s : State} {ea : Word} (h : s.admits ea = true) :
    s.memRead ea = some (s.mem.readWord (wordIndex ea)) := by
  simp [State.memRead, h]

theorem memRead_of_rejects {s : State} {ea : Word} (h : s.admits ea = false) : s.memRead ea = none := by
  simp [State.memRead, h]

theorem memWrite_of_admits {s : State} {ea : Word} (v : Word) (h : s.admits ea = true) :
    s.memWrite ea v = some { s with mem := s.mem.writeWord (wordIndex ea) v } := by
  simp [State.memWrite, h]

theorem memWrite_of_rejects {s : State} {ea : Word} (v : Word) (h : s.admits ea = false) : s.memWrite ea v = none := by
  simp [State.memWrite, h]

/-- An admitted address has its word inside the array. -/
theorem wordIndex_lt_of_admits {s : State} {ea : Word} (h : s.admits ea = true) : wordIndex ea < s.memWords := by
  simp only [State.admits, decide_eq_true_eq] at h
  unfold wordIndex
  omega

/-! ## Registers -/

theorem reg_zero (s : State) : s.reg 0#5 = 0#32 := rfl

theorem setReg_zero (s : State) (v : Word) : s.setReg 0#5 v = s := rfl

/-- A register index that is not x0 names one of x1 to x31. -/
theorem toNat_ne_zero_of_ne {r : RegIdx} (h : r ≠ 0#5) : r.toNat ≠ 0 :=
  fun h0 => h (BitVec.eq_of_toNat_eq h0)

theorem reg_setReg_same (s : State) {r : RegIdx} (v : Word) (h : r ≠ 0#5) : (s.setReg r v).reg r = v := by
  have hn := toNat_ne_zero_of_ne h
  simp [State.reg, State.setReg, hn]

theorem reg_setReg_of_ne (s : State) {r q : RegIdx} (v : Word) (h : q ≠ r) : (s.setReg r v).reg q = s.reg q := by
  unfold State.setReg
  split
  · rfl
  · next hr =>
    unfold State.reg
    split
    · rfl
    · next hq =>
      have hne : r.toNat - 1 ≠ q.toNat - 1 := fun e => h (BitVec.eq_of_toNat_eq (by omega))
      exact Vector.getElem_set_ne (by omega) _ hne

/-- A register after a register write: the new value in the destination unless that is x0. -/
theorem reg_setReg (s : State) (r q : RegIdx) (v : Word) :
    (s.setReg r v).reg q = if q = r ∧ r ≠ 0#5 then v else s.reg q := by
  by_cases hr : r = 0#5
  · subst hr
    simp [setReg_zero]
  · by_cases hq : q = r
    · subst hq
      simp [reg_setReg_same s v hr, hr]
    · simp [reg_setReg_of_ne s v hq, hq]

end Sys2Proof.Machine
end

