-- ==== Sys2Proof/Laws/Exec.lean ====
section
/-!
SUPPORT. What each shared operation and each kind of instruction does, in the terms of Safety.lean, and the
inversion of one instruction and of one step: everything a next state can be.
-/

namespace Sys2Proof.Machine

/-! ## The shared operations -/

theorem goTo_went (s : State) (t : Word) : WentOn s (s.goTo t) t := ⟨rfl, rfl⟩

/-- Writing a register and going on. -/
theorem commitReg_goTo_wroteReg (s : State) (rd : RegIdx) (v : Word) (sig : Option Signal) (pc : Word) :
    WroteReg s ((s.commitReg rd v sig).goTo pc) rd v pc where
  dest := fun h => by simp [reg_setReg, h]
  others := fun q h => by simp [reg_setReg, h]
  zero := fun h q => by simp [reg_setReg, h]
  mem := fun a => by simp
  went := ⟨by simp, by simp [phaseAt, instrIndex]⟩
  rest := ⟨by simp, by simp, by simp, by simp, by simp, by simp⟩

/-- The pc of the instruction is still there after the register write. -/
theorem commitReg_advance (s : State) (rd : RegIdx) (v : Word) (sig : Option Signal) :
    (s.commitReg rd v sig).advance = (s.commitReg rd v sig).goTo (s.pc + 4#32) := by
  simp [State.advance]

theorem commitReg_advance_wroteReg (s : State) (rd : RegIdx) (v : Word) (sig : Option Signal) :
    WroteReg s (s.commitReg rd v sig).advance rd v (s.pc + 4#32) := by
  rw [commitReg_advance]
  exact commitReg_goTo_wroteReg s rd v sig (s.pc + 4#32)

/-- Observing and going on writes nothing. -/
theorem observe_goTo_wroteNothing (s : State) (sig : Signal) (a : Option RegIdx) (b : Option Nat) (pc : Word) :
    WroteNothing s ((s.observe sig a b).goTo pc) pc where
  regs := fun q => by simp
  mem := fun _ => by simp
  went := ⟨by simp, by simp [phaseAt, instrIndex]⟩
  rest := ⟨by simp, by simp, by simp, by simp, by simp, by simp⟩

theorem observe_advance_wroteNothing (s : State) (sig : Signal) (a : Option RegIdx) (b : Option Nat) :
    WroteNothing s (s.observe sig a b).advance (s.pc + 4#32) := observe_goTo_wroteNothing s sig a b (s.pc + 4#32)

/-- HALT changes the phase, the run flag and the observations. -/
theorem halt_sameBut (s : State) : SameButObservations { s with phase := .halted, running := false } s.halt := rfl

/-- A step past the end changes the phase and the observations. -/
theorem finish_sameBut (s : State) : SameButObservations { s with phase := .finished } s.finish := rfl

/-- A stuck step changes the observations. -/
theorem stuck_sameBut (s : State) : SameButObservations s s.stuck := rfl

/-- One change after the other. -/
theorem SameButObservations.trans {s t u : State} (h : SameButObservations s t) (h' : SameButObservations t u) :
    SameButObservations s u := by
  unfold SameButObservations at *
  rw [h', h]

/-- `raise` (R241). -/
theorem raise_raised (s : State) (k : DiagKind) : Raised s (s.raise k) k where
  regs := fun q => by simp
  mem := fun a => by simp
  diag := by simp
  went := ⟨by simp, by simp [phaseAt, instrIndex]⟩
  running := by simp
  record := by simp
  program := ⟨by simp, by simp, by simp⟩

/-- `fault MisalignedTarget` (R250). -/
theorem faultMisaligned_faultedAt (s : State) (t : Word) : FaultedAt s (s.faultMisaligned t) t where
  regs := fun q => by simp
  mem := fun a => by simp
  pc := by simp
  phase := by simp
  running := by simp
  record := by simp
  diag := by simp
  program := ⟨by simp, by simp, by simp⟩

/-! ## The kinds of instructions -/

theorem classR_wroteReg (op : AluOp) (rd rs1 rs2 : RegIdx) (s : State) :
    WroteReg s (classR op rd rs1 rs2 s) rd (alu op (s.reg rs1) (s.reg rs2)) (s.pc + 4#32) :=
  commitReg_advance_wroteReg _ _ _ _

theorem classI_wroteReg (op : AluOp) (rd rs1 : RegIdx) (b : Word) (s : State) :
    WroteReg s (classI op rd rs1 b s) rd (alu op (s.reg rs1) b) (s.pc + 4#32) :=
  commitReg_advance_wroteReg _ _ _ _

theorem execLw_of_admits {s : State} {imm : BitVec 12} {rs1 : RegIdx} (rd : RegIdx)
    (h : s.admits (s.effectiveAddress rs1 imm) = true) :
    execLw rd imm rs1 s = .next (s.commitReg rd (s.mem.readWord (wordIndex (s.effectiveAddress rs1 imm)))
      (some (signalL (s.effectiveAddress rs1 imm) (immWord imm)))).advance := by
  simp [execLw, memRead_of_admits h]

theorem execLw_of_rejects {s : State} {imm : BitVec 12} {rs1 : RegIdx} (rd : RegIdx)
    (h : s.admits (s.effectiveAddress rs1 imm) = false) :
    execLw rd imm rs1 s = .next (s.raise .memoryOutOfBounds) := by
  simp [execLw, memRead_of_rejects h]

/-- The state after an admitted store. -/
def storedState (s : State) (ea v : Word) (sig : Signal) : State :=
  (State.observe { s with mem := s.mem.writeWord (wordIndex ea) v } sig none (some (wordIndex ea))).advance

theorem execSw_of_admits {s : State} {imm : BitVec 12} {rs1 : RegIdx} (rs2 : RegIdx)
    (h : s.admits (s.effectiveAddress rs1 imm) = true) :
    execSw rs2 imm rs1 s = .next (storedState s (s.effectiveAddress rs1 imm) (s.reg rs2)
      (signalS (s.effectiveAddress rs1 imm) (immWord imm))) := by
  simp [execSw, memWrite_of_admits _ h, storedState]

theorem execSw_of_rejects {s : State} {imm : BitVec 12} {rs1 : RegIdx} (rs2 : RegIdx)
    (h : s.admits (s.effectiveAddress rs1 imm) = false) :
    execSw rs2 imm rs1 s = .next (s.raise .memoryOutOfBounds) := by
  simp [execSw, memWrite_of_rejects _ h]

theorem storedState_stored {s : State} (ea v : Word) (sig : Signal) (h : s.mem.wf = true) :
    StoredWord s (storedState s ea v sig) (wordIndex ea) v (s.pc + 4#32) where
  regs := fun q => reg_of_x rfl q
  word := readWord_writeWord_same _ v h
  outside := fun _ ha => readByte_writeWord_of_outside _ _ ha
  went := ⟨rfl, rfl⟩
  rest := ⟨rfl, rfl, rfl, rfl, rfl, rfl⟩

theorem classB_not_taken {c : Comparator} {rs1 rs2 : RegIdx} {s : State} (imm : BitVec 13)
    (h : c.holds (s.reg rs1) (s.reg rs2) = false) :
    classB c rs1 rs2 imm s = (s.observe (signalB c false (immBWord imm)) none none).advance := by
  simp [classB, h]

theorem classB_taken_aligned {c : Comparator} {rs1 rs2 : RegIdx} {s : State} {imm : BitVec 13}
    (h : c.holds (s.reg rs1) (s.reg rs2) = true) (ht : alignedTarget (s.branchTarget imm) = true) :
    classB c rs1 rs2 imm s = (s.observe (signalB c true (immBWord imm)) none none).goTo (s.branchTarget imm) := by
  simp [classB, h, ht]

theorem classB_taken_misaligned {c : Comparator} {rs1 rs2 : RegIdx} {s : State} {imm : BitVec 13}
    (h : c.holds (s.reg rs1) (s.reg rs2) = true) (ht : alignedTarget (s.branchTarget imm) = false) :
    classB c rs1 rs2 imm s = s.faultMisaligned (s.branchTarget imm) := by
  simp [classB, h, ht]

theorem execLui_skip {s : State} (h : s.ujExec = .skip) (rd : RegIdx) (imm20 : BitVec 20) :
    exec (.lui rd imm20) s = .next (s.raise .unsupportedOpcode) := by
  simp [exec, execLui, h, ujSkipped]

theorem execAuipc_skip {s : State} (h : s.ujExec = .skip) (rd : RegIdx) (imm20 : BitVec 20) :
    exec (.auipc rd imm20) s = .next (s.raise .unsupportedOpcode) := by
  simp [exec, execAuipc, h, ujSkipped]

theorem execJal_skip {s : State} (h : s.ujExec = .skip) (rd : RegIdx) (imm : BitVec 21) :
    exec (.jal rd imm) s = .next (s.raise .unsupportedOpcode) := by
  simp [exec, execJal, h, ujSkipped]

theorem execJalr_skip {s : State} (h : s.ujExec = .skip) (rd rs1 : RegIdx) (imm : BitVec 12) :
    exec (.jalr rd rs1 imm) s = .next (s.raise .unsupportedOpcode) := by
  simp [exec, execJalr, h, ujSkipped]

theorem execLui_rv32i {s : State} (h : s.ujExec = .rv32i) (rd : RegIdx) (imm20 : BitVec 20) :
    exec (.lui rd imm20) s =
      .next ((s.commitReg rd (immUWord imm20) (Config.freeSignal s.freeCount)).goTo (s.pc + 4#32)) := by
  simp [exec, execLui, h, ujWrite]

theorem execAuipc_rv32i {s : State} (h : s.ujExec = .rv32i) (rd : RegIdx) (imm20 : BitVec 20) :
    exec (.auipc rd imm20) s =
      .next ((s.commitReg rd (s.pc + immUWord imm20) (Config.freeSignal s.freeCount)).goTo (s.pc + 4#32)) := by
  simp [exec, execAuipc, h, ujWrite]

theorem execJal_rv32i {s : State} (h : s.ujExec = .rv32i) (rd : RegIdx) (imm : BitVec 21) :
    exec (.jal rd imm) s = .next (ujJump rd (s.jalTarget imm) s) := by
  simp [exec, execJal, h]

theorem execJalr_rv32i {s : State} (h : s.ujExec = .rv32i) (rd rs1 : RegIdx) (imm : BitVec 12) :
    exec (.jalr rd rs1 imm) s = .next (ujJump rd (s.jalrTarget rs1 imm) s) := by
  simp [exec, execJalr, h]

theorem ujJump_aligned {t : Word} (h : alignedTarget t = true) (rd : RegIdx) (s : State) :
    ujJump rd t s = (s.commitReg rd (s.pc + 4#32) (Config.freeSignal s.freeCount)).goTo t := by
  simp [ujJump, h, ujWrite]

theorem ujJump_misaligned {t : Word} (h : alignedTarget t = false) (rd : RegIdx) (s : State) :
    ujJump rd t s = s.faultMisaligned t := by
  simp [ujJump, h]

/-! ## Alignment -/

/-- A target is aligned exactly when it is a multiple of 4. -/
theorem alignedTarget_iff (t : Word) : alignedTarget t = true ↔ t.toNat % 4 = 0 := by
  simp only [alignedTarget, beq_iff_eq]
  rw [← BitVec.toNat_inj]
  simp [BitVec.extractLsb'_toNat]

/-- The increment keeps the alignment (R26). -/
theorem alignedTarget_add_four {t : Word} (h : alignedTarget t = true) : alignedTarget (t + 4#32) = true := by
  rw [alignedTarget_iff] at h ⊢
  rw [BitVec.toNat_add]
  simp only [BitVec.toNat_ofNat]
  omega

/-! ## Everything one instruction can do -/

/-- The six branches. -/
def isBranch (i : Instr) : Prop :=
  i.mnemonic = .beq ∨ i.mnemonic = .bne ∨ i.mnemonic = .blt ∨ i.mnemonic = .bge ∨ i.mnemonic = .bltu ∨ i.mnemonic = .bgeu

/-- The four U and J instructions. -/
def isUpperOrJump (i : Instr) : Prop :=
  i.mnemonic = .lui ∨ i.mnemonic = .auipc ∨ i.mnemonic = .jal ∨ i.mnemonic = .jalr

/-- The next states of one instruction, with the guard of each. -/
inductive Effect (i : Instr) (s : State) : State → Prop where
  | wrote (rd : RegIdx) (v : Word) (sig : Option Signal) (pc : Word) (hd : destination i = some rd)
      (hpc : pc = s.pc + 4#32 ∨ (alignedTarget pc = true ∧ s.ujExec = .rv32i ∧ isUpperOrJump i)) :
      Effect i s ((s.commitReg rd v sig).goTo pc)
  | stored (rs2 rs1 : RegIdx) (imm : BitVec 12) (hi : i = .sw rs2 imm rs1)
      (h : s.admits (s.effectiveAddress rs1 imm) = true) :
      Effect i s (storedState s (s.effectiveAddress rs1 imm) (s.reg rs2)
        (signalS (s.effectiveAddress rs1 imm) (immWord imm)))
  | branched (sig : Signal) (pc : Word) (hi : isBranch i) (hpc : pc = s.pc + 4#32 ∨ alignedTarget pc = true) :
      Effect i s ((s.observe sig none none).goTo pc)
  | skipped (hs : s.ujExec = .skip) (hi : isUpperOrJump i) : Effect i s (s.raise .unsupportedOpcode)
  | rejected (r rs1 : RegIdx) (imm : BitVec 12) (hi : i = .lw r imm rs1 ∨ i = .sw r imm rs1)
      (h : s.admits (s.effectiveAddress rs1 imm) = false) : Effect i s (s.raise .memoryOutOfBounds)
  | faulted (target : Word) (hi : isBranch i ∨ (s.ujExec = .rv32i ∧ isUpperOrJump i))
      (h : alignedTarget target = false) : Effect i s (s.faultMisaligned target)
  | halted (hi : i = .halt) : Effect i s s.halt

theorem classR_effect {i : Instr} {rd : RegIdx} (hd : destination i = some rd) (op : AluOp) (rs1 rs2 : RegIdx)
    (s : State) : Effect i s (classR op rd rs1 rs2 s) := by
  simp only [classR, commitReg_advance]
  exact .wrote _ _ _ _ hd (.inl rfl)

theorem classI_effect {i : Instr} {rd : RegIdx} (hd : destination i = some rd) (op : AluOp) (rs1 : RegIdx) (b : Word)
    (s : State) : Effect i s (classI op rd rs1 b s) := by
  simp only [classI, commitReg_advance]
  exact .wrote _ _ _ _ hd (.inl rfl)

theorem classB_effect {i : Instr} (hi : isBranch i) (c : Comparator) (rs1 rs2 : RegIdx) (imm : BitVec 13) (s : State) :
    Effect i s (classB c rs1 rs2 imm s) := by
  cases h : c.holds (s.reg rs1) (s.reg rs2) with
  | false => rw [classB_not_taken imm h]; exact .branched _ _ hi (.inl rfl)
  | true =>
    cases ht : alignedTarget (s.branchTarget imm) with
    | true => rw [classB_taken_aligned h ht]; exact .branched _ _ hi (.inr ht)
    | false => rw [classB_taken_misaligned h ht]; exact .faulted _ (.inl hi) ht

theorem ujJump_effect {i : Instr} {rd : RegIdx} (hi : isUpperOrJump i) (hd : destination i = some rd) (t : Word)
    {s : State} (h : s.ujExec = .rv32i) : Effect i s (ujJump rd t s) := by
  cases ht : alignedTarget t with
  | true => rw [ujJump_aligned ht]; exact .wrote _ _ _ _ hd (.inr ⟨ht, h, hi⟩)
  | false => rw [ujJump_misaligned ht]; exact .faulted _ (.inr ⟨h, hi⟩) ht

/-- An instruction always answers a next state, and it is one of `Effect`. -/
theorem exec_effect (i : Instr) (s : State) : ∃ t, exec i s = .next t ∧ Effect i s t := by
  cases i with
  | halt => exact ⟨_, rfl, .halted rfl⟩
  | add _ _ _ => exact ⟨_, rfl, classR_effect rfl ..⟩
  | sub _ _ _ => exact ⟨_, rfl, classR_effect rfl ..⟩
  | sll _ _ _ => exact ⟨_, rfl, classR_effect rfl ..⟩
  | slt _ _ _ => exact ⟨_, rfl, classR_effect rfl ..⟩
  | sltu _ _ _ => exact ⟨_, rfl, classR_effect rfl ..⟩
  | xor _ _ _ => exact ⟨_, rfl, classR_effect rfl ..⟩
  | srl _ _ _ => exact ⟨_, rfl, classR_effect rfl ..⟩
  | sra _ _ _ => exact ⟨_, rfl, classR_effect rfl ..⟩
  | or _ _ _ => exact ⟨_, rfl, classR_effect rfl ..⟩
  | and _ _ _ => exact ⟨_, rfl, classR_effect rfl ..⟩
  | addi _ _ _ => exact ⟨_, rfl, classI_effect rfl ..⟩
  | slti _ _ _ => exact ⟨_, rfl, classI_effect rfl ..⟩
  | sltiu _ _ _ => exact ⟨_, rfl, classI_effect rfl ..⟩
  | xori _ _ _ => exact ⟨_, rfl, classI_effect rfl ..⟩
  | ori _ _ _ => exact ⟨_, rfl, classI_effect rfl ..⟩
  | andi _ _ _ => exact ⟨_, rfl, classI_effect rfl ..⟩
  | slli _ _ _ => exact ⟨_, rfl, classI_effect rfl ..⟩
  | srli _ _ _ => exact ⟨_, rfl, classI_effect rfl ..⟩
  | srai _ _ _ => exact ⟨_, rfl, classI_effect rfl ..⟩
  | lw rd imm rs1 =>
    cases h : s.admits (s.effectiveAddress rs1 imm) with
    | true =>
      refine ⟨_, execLw_of_admits rd h, ?_⟩
      rw [commitReg_advance]
      exact .wrote _ _ _ _ rfl (.inl rfl)
    | false => exact ⟨_, execLw_of_rejects rd h, .rejected _ _ _ (.inl rfl) h⟩
  | sw rs2 imm rs1 =>
    cases h : s.admits (s.effectiveAddress rs1 imm) with
    | true => exact ⟨_, execSw_of_admits rs2 h, .stored _ _ _ rfl h⟩
    | false => exact ⟨_, execSw_of_rejects rs2 h, .rejected _ _ _ (.inr rfl) h⟩
  | beq _ _ _ => exact ⟨_, rfl, classB_effect (by simp [isBranch, Instr.mnemonic]) ..⟩
  | bne _ _ _ => exact ⟨_, rfl, classB_effect (by simp [isBranch, Instr.mnemonic]) ..⟩
  | blt _ _ _ => exact ⟨_, rfl, classB_effect (by simp [isBranch, Instr.mnemonic]) ..⟩
  | bge _ _ _ => exact ⟨_, rfl, classB_effect (by simp [isBranch, Instr.mnemonic]) ..⟩
  | bltu _ _ _ => exact ⟨_, rfl, classB_effect (by simp [isBranch, Instr.mnemonic]) ..⟩
  | bgeu _ _ _ => exact ⟨_, rfl, classB_effect (by simp [isBranch, Instr.mnemonic]) ..⟩
  | lui rd imm20 =>
    cases h : s.ujExec with
    | skip => exact ⟨_, execLui_skip h .., .skipped h (by simp [isUpperOrJump, Instr.mnemonic])⟩
    | rv32i => exact ⟨_, execLui_rv32i h .., .wrote _ _ _ _ rfl (.inl rfl)⟩
  | auipc rd imm20 =>
    cases h : s.ujExec with
    | skip => exact ⟨_, execAuipc_skip h .., .skipped h (by simp [isUpperOrJump, Instr.mnemonic])⟩
    | rv32i => exact ⟨_, execAuipc_rv32i h .., .wrote _ _ _ _ rfl (.inl rfl)⟩
  | jal rd imm =>
    cases h : s.ujExec with
    | skip => exact ⟨_, execJal_skip h .., .skipped h (by simp [isUpperOrJump, Instr.mnemonic])⟩
    | rv32i => exact ⟨_, execJal_rv32i h .., ujJump_effect (by simp [isUpperOrJump, Instr.mnemonic]) rfl _ h⟩
  | jalr rd rs1 imm =>
    cases h : s.ujExec with
    | skip => exact ⟨_, execJalr_skip h .., .skipped h (by simp [isUpperOrJump, Instr.mnemonic])⟩
    | rv32i => exact ⟨_, execJalr_rv32i h .., ujJump_effect (by simp [isUpperOrJump, Instr.mnemonic]) rfl _ h⟩

/-- The inversion of one instruction. -/
theorem effect_of_exec {i : Instr} {s t : State} (h : exec i s = .next t) : Effect i s t := by
  obtain ⟨u, hu, he⟩ := exec_effect i s
  rw [hu] at h
  cases h
  exact he

/-! ## One step -/

theorem step_of_faulted {s : State} (h : s.phase = .faulted) : step s = .next s.stuck := by
  simp [step, h]

theorem step_of_fetch_none {s : State} (h : s.phase ≠ .faulted) (hf : s.fetch = none) : step s = .next s.finish := by
  simp [step, h, hf]

theorem step_of_unrecognised {s : State} {w : Word} {e : DecodeError} (h : s.phase ≠ .faulted)
    (hf : s.fetch = some w) (hd : decode w = .error e) : step s = .next (s.raise .unsupportedOpcode) := by
  simp [step, h, hf, hd]

theorem step_of_decoded {s : State} {w : Word} {i : Instr} (h : s.phase ≠ .faulted)
    (hf : s.fetch = some w) (hd : decode w = .ok i) : step s = exec i s := by
  simp [step, h, hf, hd]

/-- The inversion of one step. -/
theorem step_cases {s t : State} (h : step s = .next t) :
    (s.phase = .faulted ∧ t = s.stuck) ∨
    (s.phase ≠ .faulted ∧ s.fetch = none ∧ t = s.finish) ∨
    (s.phase ≠ .faulted ∧ ∃ w e, s.fetch = some w ∧ decode w = .error e ∧ t = s.raise .unsupportedOpcode) ∨
    (s.phase ≠ .faulted ∧ ∃ w i, s.fetch = some w ∧ decode w = .ok i ∧ exec i s = .next t) := by
  by_cases hp : s.phase = .faulted
  · rw [step_of_faulted hp] at h
    cases h
    exact .inl ⟨hp, rfl⟩
  · cases hf : s.fetch with
    | none =>
      rw [step_of_fetch_none hp hf] at h
      cases h
      exact .inr (.inl ⟨hp, rfl, rfl⟩)
    | some w =>
      cases hd : decode w with
      | error e =>
        rw [step_of_unrecognised hp hf hd] at h
        cases h
        exact .inr (.inr (.inl ⟨hp, w, e, rfl, hd, rfl⟩))
      | ok i =>
        rw [step_of_decoded hp hf hd] at h
        exact .inr (.inr (.inr ⟨hp, w, i, rfl, hd, h⟩))

/-- The current instruction is the one the step runs. -/
theorem current_of_decoded {s : State} {w : Word} {i : Instr} (hf : s.fetch = some w) (hd : decode w = .ok i) :
    s.current = some i := by
  simp [State.current, hf, hd]

/-- The other way round. -/
theorem decoded_of_current {s : State} {i : Instr} (h : s.current = some i) :
    ∃ w, s.fetch = some w ∧ decode w = .ok i := by
  unfold State.current at h
  split at h
  · cases h
  · next w hf =>
    split at h
    · next j hd => cases h; exact ⟨w, hf, hd⟩
    · cases h

/-- Fetch finds nothing exactly at or past the end of the program (R132). -/
theorem fetch_eq_none_iff (s : State) : s.fetch = none ↔ s.progLen ≤ instrIndex s.pc := by
  unfold State.fetch State.progLen
  exact List.getElem?_eq_none_iff

end Sys2Proof.Machine
end

