-- ==== Sys2Proof/Laws/PerInstr.lean ====
section
/-!
SUPPORT. Statements made instruction by instruction: the decoder inverts the encoder (30_encoding.md R101).
-/

namespace Sys2Proof.Laws.DecodeInverse

/-- Decoding the word of a well-formed instruction gives the instruction back. -/
def Statement (i : Instr) : Prop := i.wellFormed = true → decode (encode i) = .ok i

theorem halt : Statement .halt := by
  intro _
  decide

theorem add (rd rs1 rs2 : RegIdx) : Statement (.add rd rs1 rs2) := by
  intro _
  rw [decode, if_neg (ne_haltWord_of_opcode (by simp [encode]))]
  simp [encode, decodeR]

theorem sub (rd rs1 rs2 : RegIdx) : Statement (.sub rd rs1 rs2) := by
  intro _
  rw [decode, if_neg (ne_haltWord_of_opcode (by simp [encode]))]
  simp [encode, decodeR]

theorem sll (rd rs1 rs2 : RegIdx) : Statement (.sll rd rs1 rs2) := by
  intro _
  rw [decode, if_neg (ne_haltWord_of_opcode (by simp [encode]))]
  simp [encode, decodeR]

theorem slt (rd rs1 rs2 : RegIdx) : Statement (.slt rd rs1 rs2) := by
  intro _
  rw [decode, if_neg (ne_haltWord_of_opcode (by simp [encode]))]
  simp [encode, decodeR]

theorem sltu (rd rs1 rs2 : RegIdx) : Statement (.sltu rd rs1 rs2) := by
  intro _
  rw [decode, if_neg (ne_haltWord_of_opcode (by simp [encode]))]
  simp [encode, decodeR]

theorem xor (rd rs1 rs2 : RegIdx) : Statement (.xor rd rs1 rs2) := by
  intro _
  rw [decode, if_neg (ne_haltWord_of_opcode (by simp [encode]))]
  simp [encode, decodeR]

theorem srl (rd rs1 rs2 : RegIdx) : Statement (.srl rd rs1 rs2) := by
  intro _
  rw [decode, if_neg (ne_haltWord_of_opcode (by simp [encode]))]
  simp [encode, decodeR]

theorem sra (rd rs1 rs2 : RegIdx) : Statement (.sra rd rs1 rs2) := by
  intro _
  rw [decode, if_neg (ne_haltWord_of_opcode (by simp [encode]))]
  simp [encode, decodeR]

theorem or (rd rs1 rs2 : RegIdx) : Statement (.or rd rs1 rs2) := by
  intro _
  rw [decode, if_neg (ne_haltWord_of_opcode (by simp [encode]))]
  simp [encode, decodeR]

theorem and (rd rs1 rs2 : RegIdx) : Statement (.and rd rs1 rs2) := by
  intro _
  rw [decode, if_neg (ne_haltWord_of_opcode (by simp [encode]))]
  simp [encode, decodeR]

theorem addi (rd rs1 : RegIdx) (imm : BitVec 12) : Statement (.addi rd rs1 imm) := by
  intro _
  rw [decode, if_neg (ne_haltWord_of_opcode (by simp [encode]))]
  simp [encode, decodeI]

theorem slti (rd rs1 : RegIdx) (imm : BitVec 12) : Statement (.slti rd rs1 imm) := by
  intro _
  rw [decode, if_neg (ne_haltWord_of_opcode (by simp [encode]))]
  simp [encode, decodeI]

theorem sltiu (rd rs1 : RegIdx) (imm : BitVec 12) : Statement (.sltiu rd rs1 imm) := by
  intro _
  rw [decode, if_neg (ne_haltWord_of_opcode (by simp [encode]))]
  simp [encode, decodeI]

theorem xori (rd rs1 : RegIdx) (imm : BitVec 12) : Statement (.xori rd rs1 imm) := by
  intro _
  rw [decode, if_neg (ne_haltWord_of_opcode (by simp [encode]))]
  simp [encode, decodeI]

theorem ori (rd rs1 : RegIdx) (imm : BitVec 12) : Statement (.ori rd rs1 imm) := by
  intro _
  rw [decode, if_neg (ne_haltWord_of_opcode (by simp [encode]))]
  simp [encode, decodeI]

theorem andi (rd rs1 : RegIdx) (imm : BitVec 12) : Statement (.andi rd rs1 imm) := by
  intro _
  rw [decode, if_neg (ne_haltWord_of_opcode (by simp [encode]))]
  simp [encode, decodeI]

theorem slli (rd rs1 : RegIdx) (shamt : BitVec 5) : Statement (.slli rd rs1 shamt) := by
  intro _
  rw [decode, if_neg (ne_haltWord_of_opcode (by simp [encode]))]
  simp [encode, decodeI]

theorem srli (rd rs1 : RegIdx) (shamt : BitVec 5) : Statement (.srli rd rs1 shamt) := by
  intro _
  rw [decode, if_neg (ne_haltWord_of_opcode (by simp [encode]))]
  simp [encode, decodeI]

theorem srai (rd rs1 : RegIdx) (shamt : BitVec 5) : Statement (.srai rd rs1 shamt) := by
  intro _
  rw [decode, if_neg (ne_haltWord_of_opcode (by simp [encode]))]
  simp [encode, decodeI]

theorem lw (rd : RegIdx) (imm : BitVec 12) (rs1 : RegIdx) : Statement (.lw rd imm rs1) := by
  intro _
  rw [decode, if_neg (ne_haltWord_of_opcode (by simp [encode]))]
  simp [encode]

theorem sw (rs2 : RegIdx) (imm : BitVec 12) (rs1 : RegIdx) : Statement (.sw rs2 imm rs1) := by
  intro _
  rw [decode, if_neg (ne_haltWord_of_opcode (by simp [encode]))]
  simp [encode]

theorem lui (rd : RegIdx) (imm20 : BitVec 20) : Statement (.lui rd imm20) := by
  intro _
  rw [decode, if_neg (ne_haltWord_of_opcode (by simp [encode]))]
  simp [encode]

theorem auipc (rd : RegIdx) (imm20 : BitVec 20) : Statement (.auipc rd imm20) := by
  intro _
  rw [decode, if_neg (ne_haltWord_of_opcode (by simp [encode]))]
  simp [encode]

theorem jalr (rd rs1 : RegIdx) (imm : BitVec 12) : Statement (.jalr rd rs1 imm) := by
  intro _
  rw [decode, if_neg (ne_haltWord_of_opcode (by simp [encode]))]
  simp [encode]

theorem jal (rd : RegIdx) (imm : BitVec 21) : Statement (.jal rd imm) := by
  intro h
  rw [decode, if_neg (ne_haltWord_of_opcode (by simp [encode]))]
  simp [encode, immJOf_encodeJ imm rd _ h]

theorem beq (rs1 rs2 : RegIdx) (imm : BitVec 13) : Statement (.beq rs1 rs2 imm) := by
  intro h
  simp only [Instr.wellFormed, Bool.and_eq_true, Bool.not_eq_true'] at h
  have hne : encode (.beq rs1 rs2 imm) ≠ Config.haltWord := by
    rw [haltWord_eq_encodeB]
    intro he
    have h1 : rs1 = 0#5 := by simpa [encode] using congrArg rs1Of he
    have h2 : rs2 = 0#5 := by simpa [encode] using congrArg rs2Of he
    have h3 : imm = 0#13 := by
      have := congrArg immBOf he
      rwa [encode, immBOf_encodeB imm _ _ _ _ h.1, immBOf_encodeB 0#13 _ _ _ _ rfl] at this
    simp [isHaltOperands, h1, h2, h3] at h
  rw [decode, if_neg hne]
  simp [encode, decodeB, immBOf_encodeB imm rs2 rs1 _ _ h.1]

theorem bne (rs1 rs2 : RegIdx) (imm : BitVec 13) : Statement (.bne rs1 rs2 imm) := by
  intro h
  rw [decode, if_neg (ne_haltWord_of_funct3 (by simp [encode]))]
  simp [encode, decodeB, immBOf_encodeB imm rs2 rs1 _ _ h]

theorem blt (rs1 rs2 : RegIdx) (imm : BitVec 13) : Statement (.blt rs1 rs2 imm) := by
  intro h
  rw [decode, if_neg (ne_haltWord_of_funct3 (by simp [encode]))]
  simp [encode, decodeB, immBOf_encodeB imm rs2 rs1 _ _ h]

theorem bge (rs1 rs2 : RegIdx) (imm : BitVec 13) : Statement (.bge rs1 rs2 imm) := by
  intro h
  rw [decode, if_neg (ne_haltWord_of_funct3 (by simp [encode]))]
  simp [encode, decodeB, immBOf_encodeB imm rs2 rs1 _ _ h]

theorem bltu (rs1 rs2 : RegIdx) (imm : BitVec 13) : Statement (.bltu rs1 rs2 imm) := by
  intro h
  rw [decode, if_neg (ne_haltWord_of_funct3 (by simp [encode]))]
  simp [encode, decodeB, immBOf_encodeB imm rs2 rs1 _ _ h]

theorem bgeu (rs1 rs2 : RegIdx) (imm : BitVec 13) : Statement (.bgeu rs1 rs2 imm) := by
  intro h
  rw [decode, if_neg (ne_haltWord_of_funct3 (by simp [encode]))]
  simp [encode, decodeB, immBOf_encodeB imm rs2 rs1 _ _ h]

end Sys2Proof.Laws.DecodeInverse
end

