-- ==== Sys2Proof/Laws/Run.lean ====
section
/-!
SUPPORT. Runs of the core as sequences of steps.
-/

namespace Sys2Proof.Machine

/-- A run of `k + 1` steps is a step and a run of `k` steps. -/
theorem run_of_step {k : Nat} {s u : State} (h : step s = .next u) :
    Host.Core.run Sys2Proof.core (k + 1) s = Host.Core.run Sys2Proof.core k u := by
  simp only [Host.Core.run]
  rw [show Sys2Proof.core.step s = .next u from h]

/-- The inversion of a run of `k + 1` steps. -/
theorem step_of_run {k : Nat} {s t : State} (h : Host.Core.run Sys2Proof.core (k + 1) s = .next t) :
    ∃ u, step s = .next u ∧ Host.Core.run Sys2Proof.core k u = .next t := by
  cases hu : step s with
  | next u =>
    rw [run_of_step hu] at h
    exact ⟨u, rfl, h⟩
  | fault r => exact nomatch r
  | refused r =>
    simp only [Host.Core.run] at h
    rw [show Sys2Proof.core.step s = .refused r from hu] at h
    cases h

end Sys2Proof.Machine
end

