-- ==== Sys2Proof/Tests/Slice0.lean ====
section
/-!
SUPPORT. The model's own tests: ill-formed terms refused, one word a constructor decoded (the words and the results
of spec/95_test_vectors.md, or written out from the formats of 30_encoding.md), one or two single steps an
instruction (the vectors of spec/95_test_vectors.md), and a witness for the hypotheses of every statement that has
any, at the boundaries of each clause.
-/

namespace Sys2Proof.Tests

open Sys2Proof Sys2Proof.Machine

/-! ## Helpers -/

/-- A core at `pc` in a program of `len` no-operations with `word` at `pc`, with some registers and words set. -/
def machine (uj : UjExec) (len : Nat) (pc word : Word) (regs : List (RegIdx × Word)) (mem : List (Nat × Word)) : State :=
  let words := (List.replicate len 0x00000013#32).set (pc.toNat / 4) word
  let s := { State.build MemSize.default uj ((Program.ofWords? words).getD Program.empty) with pc := pc }
  let s := regs.foldl (fun s r => s.setReg r.1 r.2) s
  { s with mem := mem.foldl (fun m c => m.writeWord c.1 c.2) s.mem }

/-- The outcome is a next state that satisfies `p`. -/
def nextHas (o : Host.Outcome State Fault Refusal) (p : State → Bool) : Bool :=
  match o with
  | .next t => p t
  | .fault _ => false
  | .refused _ => false

/-- The word is no instruction. -/
def unrecognised (w : Word) : Bool :=
  match decode w with
  | .ok _ => false
  | .error _ => true

/-- A completed step: no diagnostic, on to `pc`, executing. -/
def wentTo (pc : Word) (t : State) : Bool := t.pc == pc && t.diag == [] && t.phase == .executing

/-! ## WellFormed refuses each kind of ill-formed term -/

theorem test_wellFormed_refuses_odd_branch : (Instr.bne 1#5 2#5 7#13).wellFormed = false := by decide
theorem test_wellFormed_refuses_odd_jump : (Instr.jal 1#5 3#21).wellFormed = false := by decide
theorem test_wellFormed_refuses_halt_as_beq : (Instr.beq 0#5 0#5 0#13).wellFormed = false := by decide
theorem test_wellFormed_accepts_other_beq : (Instr.beq 5#5 5#5 0#13).wellFormed = true := by decide

/-! ## Decoding, one word a constructor -/

theorem test_decode_halt : decode 0x00000063#32 = .ok (.halt) := by decide
theorem test_decode_add : decode 0x002081B3#32 = .ok (.add 3#5 1#5 2#5) := by decide
theorem test_decode_sub : decode 0x402081B3#32 = .ok (.sub 3#5 1#5 2#5) := by decide
theorem test_decode_sll : decode 0x002091B3#32 = .ok (.sll 3#5 1#5 2#5) := by decide
theorem test_decode_slt : decode 0x0020A1B3#32 = .ok (.slt 3#5 1#5 2#5) := by decide
theorem test_decode_sltu : decode 0x0020B1B3#32 = .ok (.sltu 3#5 1#5 2#5) := by decide
theorem test_decode_xor : decode 0x0020C1B3#32 = .ok (.xor 3#5 1#5 2#5) := by decide
theorem test_decode_srl : decode 0x0020D1B3#32 = .ok (.srl 3#5 1#5 2#5) := by decide
theorem test_decode_sra : decode 0x4020D1B3#32 = .ok (.sra 3#5 1#5 2#5) := by decide
theorem test_decode_or : decode 0x0020E1B3#32 = .ok (.or 3#5 1#5 2#5) := by decide
theorem test_decode_and : decode 0x0020F1B3#32 = .ok (.and 3#5 1#5 2#5) := by decide
theorem test_decode_addi : decode 0x80008193#32 = .ok (.addi 3#5 1#5 0x800#12) := by decide
theorem test_decode_slti : decode 0xFFF0A193#32 = .ok (.slti 3#5 1#5 0xFFF#12) := by decide
theorem test_decode_sltiu : decode 0x8000B193#32 = .ok (.sltiu 3#5 1#5 0x800#12) := by decide
theorem test_decode_xori : decode 0x00F0C193#32 = .ok (.xori 3#5 1#5 15#12) := by decide
theorem test_decode_ori : decode 0x7FF0E193#32 = .ok (.ori 3#5 1#5 0x7FF#12) := by decide
theorem test_decode_andi : decode 0xF000F193#32 = .ok (.andi 3#5 1#5 0xF00#12) := by decide
theorem test_decode_slli : decode 0x01F09193#32 = .ok (.slli 3#5 1#5 31#5) := by decide
theorem test_decode_srli : decode 0x01C0D193#32 = .ok (.srli 3#5 1#5 28#5) := by decide
theorem test_decode_srai : decode 0x4040D193#32 = .ok (.srai 3#5 1#5 4#5) := by decide
theorem test_decode_lw : decode 0x00412083#32 = .ok (.lw 1#5 4#12 2#5) := by decide
theorem test_decode_sw : decode 0xFE60AE23#32 = .ok (.sw 6#5 0xFFC#12 1#5) := by decide
theorem test_decode_beq : decode 0x00528063#32 = .ok (.beq 5#5 5#5 0#13) := by decide
theorem test_decode_bne : decode 0xFE539CE3#32 = .ok (.bne 7#5 5#5 0x1FF8#13) := by decide
theorem test_decode_blt : decode 0x0020C663#32 = .ok (.blt 1#5 2#5 12#13) := by decide
theorem test_decode_bge : decode 0xFE20DEE3#32 = .ok (.bge 1#5 2#5 0x1FFC#13) := by decide
theorem test_decode_bltu : decode 0x0020E863#32 = .ok (.bltu 1#5 2#5 16#13) := by decide
theorem test_decode_bgeu : decode 0x0020F863#32 = .ok (.bgeu 1#5 2#5 16#13) := by decide
theorem test_decode_lui : decode 0x123452B7#32 = .ok (.lui 5#5 0x12345#20) := by decide
theorem test_decode_auipc : decode 0x00001317#32 = .ok (.auipc 6#5 1#20) := by decide
theorem test_decode_jal : decode 0x001000EF#32 = .ok (.jal 1#5 2048#21) := by decide
theorem test_decode_jalr : decode 0xFFC280E7#32 = .ok (.jalr 1#5 5#5 0xFFC#12) := by decide

theorem test_decode_beq_largest : decode 0x7E000FE3#32 = .ok (.beq 0#5 0#5 4094#13) := by decide
theorem test_decode_beq_smallest : decode 0x80000063#32 = .ok (.beq 0#5 0#5 0x1000#13) := by decide
theorem test_decode_jal_largest : decode 0x7FFFF0EF#32 = .ok (.jal 1#5 1048574#21) := by decide
theorem test_decode_jal_smallest : decode 0x800000EF#32 = .ok (.jal 1#5 0x100000#21) := by decide

/-! ## Words of R103, R104 that are no instruction -/

theorem test_unrecognised :
    [0x00000000#32, 0xFFFFFFFF#32, 0x00000073#32, 0x00100073#32, 0x0FF0000F#32, 0x02208033#32, 0x20001033#32,
      0x4000F033#32, 0x00008003#32, 0x00003003#32, 0x00208023#32, 0x0000A063#32, 0x0000B063#32,
      0x00009067#32, 0x02009013#32, 0x40009013#32, 0x4200D013#32, 0x00000001#32, 0x0000007F#32].all unrecognised = true := by decide

/-! ## Single steps -/

theorem test_step_add_overflow : nextHas (step (machine .skip 8 0#32 0x002081B3#32 [(1#5, 0x7FFFFFFF#32), (2#5, 0x7FFFFFFF#32)] []))
    (fun t => t.reg 3#5 == 0xFFFFFFFE#32 && wentTo 4#32 t) = true := by decide
theorem test_step_sub_order : nextHas (step (machine .skip 8 0#32 0x402081B3#32 [(1#5, 0x0#32), (2#5, 0x1#32)] []))
    (fun t => t.reg 3#5 == 0xFFFFFFFF#32 && wentTo 4#32 t) = true := by decide
theorem test_step_sub_wraps : nextHas (step (machine .skip 8 0#32 0x402081B3#32 [(1#5, 0x80000000#32), (2#5, 0x1#32)] []))
    (fun t => t.reg 3#5 == 0x7FFFFFFF#32 && wentTo 4#32 t) = true := by decide
theorem test_step_and : nextHas (step (machine .skip 8 0#32 0x0020F1B3#32 [(1#5, 0xF0F0F0F0#32), (2#5, 0xFF00FF0#32)] []))
    (fun t => t.reg 3#5 == 0x00F000F0#32 && wentTo 4#32 t) = true := by decide
theorem test_step_or : nextHas (step (machine .skip 8 0#32 0x0020E1B3#32 [(1#5, 0xF0F0F0F0#32), (2#5, 0xFF00FF0#32)] []))
    (fun t => t.reg 3#5 == 0xFFF0FFF0#32 && wentTo 4#32 t) = true := by decide
theorem test_step_xor : nextHas (step (machine .skip 8 0#32 0x0020C1B3#32 [(1#5, 0xF0F0F0F0#32), (2#5, 0xFF00FF0#32)] []))
    (fun t => t.reg 3#5 == 0xFF00FF00#32 && wentTo 4#32 t) = true := by decide
theorem test_step_sll_by_32 : nextHas (step (machine .skip 8 0#32 0x002091B3#32 [(1#5, 0xDEADBEEF#32), (2#5, 0x20#32)] []))
    (fun t => t.reg 3#5 == 0xDEADBEEF#32 && wentTo 4#32 t) = true := by decide
theorem test_step_sll_by_all_ones : nextHas (step (machine .skip 8 0#32 0x002091B3#32 [(1#5, 0x1#32), (2#5, 0xFFFFFFFF#32)] []))
    (fun t => t.reg 3#5 == 0x80000000#32 && wentTo 4#32 t) = true := by decide
theorem test_step_srl : nextHas (step (machine .skip 8 0#32 0x0020D1B3#32 [(1#5, 0xFFFFFFFF#32), (2#5, 0x4#32)] []))
    (fun t => t.reg 3#5 == 0x0FFFFFFF#32 && wentTo 4#32 t) = true := by decide
theorem test_step_srl_by_33 : nextHas (step (machine .skip 8 0#32 0x0020D1B3#32 [(1#5, 0x80000000#32), (2#5, 0x21#32)] []))
    (fun t => t.reg 3#5 == 0x40000000#32 && wentTo 4#32 t) = true := by decide
theorem test_step_sra_negative : nextHas (step (machine .skip 8 0#32 0x4020D1B3#32 [(1#5, 0x80000000#32), (2#5, 0x4#32)] []))
    (fun t => t.reg 3#5 == 0xF8000000#32 && wentTo 4#32 t) = true := by decide
theorem test_step_sra_positive : nextHas (step (machine .skip 8 0#32 0x4020D1B3#32 [(1#5, 0x7FFFFFFF#32), (2#5, 0x4#32)] []))
    (fun t => t.reg 3#5 == 0x07FFFFFF#32 && wentTo 4#32 t) = true := by decide
theorem test_step_slt_signed : nextHas (step (machine .skip 8 0#32 0x0020A1B3#32 [(1#5, 0xFFFFFFFF#32), (2#5, 0x0#32)] []))
    (fun t => t.reg 3#5 == 0x00000001#32 && wentTo 4#32 t) = true := by decide
theorem test_step_slt_order : nextHas (step (machine .skip 8 0#32 0x0020A1B3#32 [(1#5, 0x0#32), (2#5, 0xFFFFFFFF#32)] []))
    (fun t => t.reg 3#5 == 0x00000000#32 && wentTo 4#32 t) = true := by decide
theorem test_step_sltu_order : nextHas (step (machine .skip 8 0#32 0x0020B1B3#32 [(1#5, 0x0#32), (2#5, 0xFFFFFFFF#32)] []))
    (fun t => t.reg 3#5 == 0x00000001#32 && wentTo 4#32 t) = true := by decide
theorem test_step_sltu_unsigned : nextHas (step (machine .skip 8 0#32 0x0020B1B3#32 [(1#5, 0xFFFFFFFF#32), (2#5, 0x0#32)] []))
    (fun t => t.reg 3#5 == 0x00000000#32 && wentTo 4#32 t) = true := by decide
theorem test_step_addi_smallest : nextHas (step (machine .skip 8 0#32 0x80008193#32 [(1#5, 0x5#32)] []))
    (fun t => t.reg 3#5 == 0xFFFFF805#32 && wentTo 4#32 t) = true := by decide
theorem test_step_andi_sign_extends : nextHas (step (machine .skip 8 0#32 0xF000F193#32 [(1#5, 0xFFFFFFFF#32)] []))
    (fun t => t.reg 3#5 == 0xFFFFFF00#32 && wentTo 4#32 t) = true := by decide
theorem test_step_andi : nextHas (step (machine .skip 8 0#32 0x0FF0F193#32 [(1#5, 0x12345678#32)] []))
    (fun t => t.reg 3#5 == 0x00000078#32 && wentTo 4#32 t) = true := by decide
theorem test_step_ori_sign_extends : nextHas (step (machine .skip 8 0#32 0x8000E193#32 [(1#5, 0x12345678#32)] []))
    (fun t => t.reg 3#5 == 0xFFFFFE78#32 && wentTo 4#32 t) = true := by decide
theorem test_step_xori_all_ones : nextHas (step (machine .skip 8 0#32 0xFFF0C193#32 [(1#5, 0x12345678#32)] []))
    (fun t => t.reg 3#5 == 0xEDCBA987#32 && wentTo 4#32 t) = true := by decide
theorem test_step_slti_signed : nextHas (step (machine .skip 8 0#32 0x8000A193#32 [(1#5, 0x80000000#32)] []))
    (fun t => t.reg 3#5 == 0x00000001#32 && wentTo 4#32 t) = true := by decide
theorem test_step_slti_not_less : nextHas (step (machine .skip 8 0#32 0xFFF0A193#32 [(1#5, 0x0#32)] []))
    (fun t => t.reg 3#5 == 0x00000000#32 && wentTo 4#32 t) = true := by decide
theorem test_step_sltiu_extends_then_unsigned : nextHas (step (machine .skip 8 0#32 0xFFF0B193#32 [(1#5, 0x5#32)] []))
    (fun t => t.reg 3#5 == 0x00000001#32 && wentTo 4#32 t) = true := by decide
theorem test_step_sltiu_bound : nextHas (step (machine .skip 8 0#32 0x8000B193#32 [(1#5, 0xFFFFF800#32)] []))
    (fun t => t.reg 3#5 == 0x00000000#32 && wentTo 4#32 t) = true := by decide
theorem test_step_slli : nextHas (step (machine .skip 8 0#32 0x01F09193#32 [(1#5, 0x1#32)] []))
    (fun t => t.reg 3#5 == 0x80000000#32 && wentTo 4#32 t) = true := by decide
theorem test_step_srli : nextHas (step (machine .skip 8 0#32 0x01C0D193#32 [(1#5, 0xFFFFFFFF#32)] []))
    (fun t => t.reg 3#5 == 0x0000000F#32 && wentTo 4#32 t) = true := by decide
theorem test_step_srai : nextHas (step (machine .skip 8 0#32 0x4040D193#32 [(1#5, 0xF0000000#32)] []))
    (fun t => t.reg 3#5 == 0xFF000000#32 && wentTo 4#32 t) = true := by decide
theorem test_step_srai_by_zero : nextHas (step (machine .skip 8 0#32 0x4000D193#32 [(1#5, 0xDEADBEEF#32)] []))
    (fun t => t.reg 3#5 == 0xDEADBEEF#32 && wentTo 4#32 t) = true := by decide
theorem test_step_add_to_its_source : nextHas (step (machine .skip 8 0#32 0x001080B3#32 [(1#5, 0x3#32)] []))
    (fun t => t.reg 1#5 == 6#32) = true := by decide
theorem test_step_addi_to_zero : nextHas (step (machine .skip 8 0#32 0x00A00013#32 [] []))
    (fun t => t.reg 0#5 == 0#32 && wentTo 4#32 t) = true := by decide
theorem test_step_lw_last_byte : nextHas (step (machine .skip 8 0#32 0x0FF02283#32 [(5#5, 0x1#32)] [(63, 0xFEEDF00D#32)]))
    (fun t => t.reg 5#5 == 0xFEEDF00D#32 && wentTo 4#32 t) = true := by decide
theorem test_step_lw_rejected : nextHas (step (machine .skip 8 0#32 0x10002283#32 [(5#5, 0xAAAAAAAA#32)] []))
    (fun t => t.reg 5#5 == 0xAAAAAAAA#32 && t.pc == 4#32 && t.diag == [⟨.memoryOutOfBounds, 0#32⟩]) = true := by decide
theorem test_step_sw_whole_word : nextHas (step (machine .skip 8 0#32 0x00602323#32 [(6#5, 0x99#32)] [(1, 0xFFFFFFFF#32)]))
    (fun t => t.mem.readWord 1 == 0x99#32 && t.mem.readWord 0 == 0#32 && wentTo 4#32 t) = true := by decide
theorem test_step_sw_rejected : nextHas (step (machine .skip 8 0#32 0x10602023#32 [(6#5, 0x42#32)] []))
    (fun t => t.mem == [] && t.pc == 4#32 && t.diag == [⟨.memoryOutOfBounds, 0#32⟩]) = true := by decide
theorem test_step_beq_not_taken : nextHas (step (machine .skip 8 8#32 0x00208463#32 [(1#5, 0x5#32), (2#5, 0x6#32)] []))
    (fun t => wentTo 12#32 t) = true := by decide
theorem test_step_bne_taken : nextHas (step (machine .skip 8 20#32 0xFE539CE3#32 [(7#5, 0x2#32), (5#5, 0xA#32)] []))
    (fun t => wentTo 12#32 t) = true := by decide
theorem test_step_blt_signed : nextHas (step (machine .skip 8 8#32 0x0020C663#32 [(1#5, 0xFFFFFFFF#32), (2#5, 0x1#32)] []))
    (fun t => wentTo 20#32 t) = true := by decide
theorem test_step_blt_equal : nextHas (step (machine .skip 8 8#32 0x0020C663#32 [(1#5, 0x3#32), (2#5, 0x3#32)] []))
    (fun t => wentTo 12#32 t) = true := by decide
theorem test_step_bge_equal : nextHas (step (machine .skip 8 16#32 0xFE20DEE3#32 [(1#5, 0x3#32), (2#5, 0x3#32)] []))
    (fun t => wentTo 12#32 t) = true := by decide
theorem test_step_bge_signed : nextHas (step (machine .skip 8 16#32 0xFE20DEE3#32 [(1#5, 0xFFFFFFFF#32), (2#5, 0x0#32)] []))
    (fun t => wentTo 20#32 t) = true := by decide
theorem test_step_bltu_unsigned : nextHas (step (machine .skip 8 0#32 0x0020E863#32 [(1#5, 0x1#32), (2#5, 0xFFFFFFFF#32)] []))
    (fun t => wentTo 16#32 t) = true := by decide
theorem test_step_bltu_not_taken : nextHas (step (machine .skip 8 0#32 0x0020E863#32 [(1#5, 0xFFFFFFFF#32), (2#5, 0x1#32)] []))
    (fun t => wentTo 4#32 t) = true := by decide
theorem test_step_bgeu_unsigned : nextHas (step (machine .skip 8 0#32 0x0020F863#32 [(1#5, 0xFFFFFFFF#32), (2#5, 0x1#32)] []))
    (fun t => wentTo 16#32 t) = true := by decide
theorem test_step_bgeu_not_taken : nextHas (step (machine .skip 8 0#32 0x0020F863#32 [(1#5, 0x7FFFFFFF#32), (2#5, 0x80000000#32)] []))
    (fun t => wentTo 4#32 t) = true := by decide
theorem test_step_beq_wraps_below_zero : nextHas (step (machine .skip 8 4#32 0xFE000CE3#32 [] []))
    (fun t => t.pc == 0xFFFFFFFC#32 && t.phase == .finished) = true := by decide
theorem test_step_bne_misaligned : nextHas (step (machine .skip 8 0#32 0x00009163#32 [(1#5, 0x1#32)] []))
    (fun t => t.pc == 0#32 && t.phase == .faulted && t.faultRecord == some ⟨0#32, 2#32⟩ && t.diag == []) = true := by decide
theorem test_step_halt : nextHas (step (machine .skip 8 12#32 0x00000063#32 [] []))
    (fun t => t.pc == 12#32 && t.phase == .halted && !t.running && t.diag == []) = true := by decide
theorem test_step_lui_skip : nextHas (step (machine .skip 8 0#32 0x123452B7#32 [(5#5, 0x1#32)] []))
    (fun t => t.reg 5#5 == 1#32 && t.pc == 4#32 && t.diag == [⟨.unsupportedOpcode, 0#32⟩]) = true := by decide
theorem test_step_lui_rv32i : nextHas (step (machine .rv32i 8 0#32 0x123452B7#32 [(5#5, 0x1#32)] []))
    (fun t => t.reg 5#5 == 0x12345000#32 && wentTo 4#32 t) = true := by decide
theorem test_step_auipc_skip : nextHas (step (machine .skip 8 8#32 0x00001317#32 [] []))
    (fun t => t.reg 6#5 == 0#32 && t.pc == 12#32 && t.diag == [⟨.unsupportedOpcode, 8#32⟩]) = true := by decide
theorem test_step_auipc_rv32i : nextHas (step (machine .rv32i 8 8#32 0x00001317#32 [] []))
    (fun t => t.reg 6#5 == 0x1008#32 && wentTo 12#32 t) = true := by decide
theorem test_step_jal_rv32i : nextHas (step (machine .rv32i 8 4#32 0x008000EF#32 [] []))
    (fun t => t.reg 1#5 == 8#32 && wentTo 12#32 t) = true := by decide
theorem test_step_jal_misaligned : nextHas (step (machine .rv32i 8 4#32 0x006000EF#32 [] []))
    (fun t => t.reg 1#5 == 0#32 && t.pc == 4#32 && t.phase == .faulted) = true := by decide
theorem test_step_jalr_skip : nextHas (step (machine .skip 8 8#32 0xFFC280E7#32 [(5#5, 0x20#32)] []))
    (fun t => t.reg 1#5 == 0#32 && t.pc == 12#32 && t.diag == [⟨.unsupportedOpcode, 8#32⟩]) = true := by decide
theorem test_step_jalr_clears_bit_zero : nextHas (step (machine .rv32i 8 0#32 0x003080E7#32 [(1#5, 0x9#32)] []))
    (fun t => t.reg 1#5 == 4#32 && wentTo 12#32 t) = true := by decide
theorem test_step_unrecognised : nextHas (step (machine .skip 8 0#32 0x00000073#32 [] []))
    (fun t => t.pc == 4#32 && t.diag == [⟨.unsupportedOpcode, 0#32⟩]) = true := by decide
theorem test_step_reset_finishes : nextHas (step State.reset) (fun t => t.phase == .finished && t.pc == 0#32) = true := by
  decide
theorem test_withFetchWord_runs : nextHas (step (State.reset.withFetchWord 32 0x00A00293)) (fun t => t.reg 5#5 == 10#32) =
    true := by decide
theorem test_assemble_line : Asm.assemble .rdRs1Imm Config.defaultNopWord
    ['l', ':', ' ', 'a', 'd', 'd', 'i', ' ', 't', '0', ',', 'z', 'e', 'r', 'o', ',', ' ', '1', '0', ' ', '#', 'c'] =
      some ⟨[0x00A00293#32], []⟩ := by decide

/-! ## Witnesses: concrete states and operands that meet the hypotheses of each statement -/

theorem witness_RegisterAddSubLogic :
    (0x002081B3#32 &&& 0xFE00707F#32 : Word) = 0x00000033#32 ∧
    (0x402081B3#32 &&& 0xFE00707F#32 : Word) = 0x40000033#32 ∧
    (0x0020C1B3#32 &&& 0xFE00707F#32 : Word) = 0x00004033#32 ∧
    (0x0020E1B3#32 &&& 0xFE00707F#32 : Word) = 0x00006033#32 ∧
    (0x0020F1B3#32 &&& 0xFE00707F#32 : Word) = 0x00007033#32 := by decide

theorem witness_RegisterShifts :
    (0x002091B3#32 &&& 0xFE00707F#32 : Word) = 0x00001033#32 ∧
    (0x0020D1B3#32 &&& 0xFE00707F#32 : Word) = 0x00005033#32 ∧
    (0x4020D1B3#32 &&& 0xFE00707F#32 : Word) = 0x40005033#32 := by decide

theorem witness_RegisterCompares :
    (0x0020A1B3#32 &&& 0xFE00707F#32 : Word) = 0x00002033#32 ∧
    (0x0020B1B3#32 &&& 0xFE00707F#32 : Word) = 0x00003033#32 := by decide

theorem witness_ImmediateAddLogic :
    (0x80008193#32 &&& 0x0000707F#32 : Word) = 0x00000013#32 ∧
    (0x00F0C193#32 &&& 0x0000707F#32 : Word) = 0x00004013#32 ∧
    (0x7FF0E193#32 &&& 0x0000707F#32 : Word) = 0x00006013#32 ∧
    (0xF000F193#32 &&& 0x0000707F#32 : Word) = 0x00007013#32 := by decide

theorem witness_ImmediateCompares :
    (0xFFF0A193#32 &&& 0x0000707F#32 : Word) = 0x00002013#32 ∧
    (0x8000B193#32 &&& 0x0000707F#32 : Word) = 0x00003013#32 := by decide

theorem witness_ImmediateShifts :
    (0x01F09193#32 &&& 0xFE00707F#32 : Word) = 0x00001013#32 ∧
    (0x01C0D193#32 &&& 0xFE00707F#32 : Word) = 0x00005013#32 ∧
    (0x4040D193#32 &&& 0xFE00707F#32 : Word) = 0x40005013#32 := by decide

/-- Offset 255 is the last admitted byte address of 64 words, 256 the first rejected one. -/
theorem witness_LoadWord :
    (0x0FF02283#32 &&& 0x0000707F#32 : Word) = 0x00002003#32 ∧
    (State.reset.reg 0#5 + (255#12).signExtend 32).toNat < 4 * State.reset.memSize.words ∧
    4 * State.reset.memSize.words ≤ (State.reset.reg 0#5 + (256#12).signExtend 32).toNat := by decide

theorem witness_StoreWord :
    (0x00602323#32 &&& 0x0000707F#32 : Word) = 0x00002023#32 ∧ State.reset.mem.wf = true ∧
    (State.reset.reg 0#5 + (255#12).signExtend 32).toNat < 4 * State.reset.memSize.words ∧
    4 * State.reset.memSize.words ≤ (State.reset.reg 0#5 + (256#12).signExtend 32).toNat := by decide

/-- x1 = 5, x2 = 0xFFFFFFFF, at pc 8. -/
def twoRegs (uj : UjExec) : State := machine uj 8 8#32 0x00000013#32 [(1#5, 5#32), (2#5, 0xFFFFFFFF#32)] []

/-- The targets used below: offset 8 leads to an aligned one, offset 6 to a misaligned one. -/
theorem witness_branch_targets (uj : UjExec) :
    ((twoRegs uj).pc + (8#13).signExtend 32).toNat % 4 = 0 ∧ ((twoRegs uj).pc + (6#13).signExtend 32).toNat % 4 ≠ 0 := by
  cases uj <;> decide

theorem witness_EqualityBranches :
    (0x00108463#32 &&& 0x0000707F#32 : Word) = 0x00000063#32 ∧
    (0x00109463#32 &&& 0x0000707F#32 : Word) = 0x00001063#32 ∧ (0x00108463#32 : Word) ≠ 0x00000063#32 ∧
    (twoRegs .skip).reg 1#5 = (twoRegs .skip).reg 1#5 ∧ ¬ (twoRegs .skip).reg 1#5 = (twoRegs .skip).reg 2#5 ∧
    (twoRegs .skip).reg 1#5 ≠ (twoRegs .skip).reg 2#5 ∧ ¬ (twoRegs .skip).reg 1#5 ≠ (twoRegs .skip).reg 1#5 := by decide

theorem witness_OrderedBranches :
    (0x0020C663#32 &&& 0x0000707F#32 : Word) = 0x00004063#32 ∧
    (0xFE20DEE3#32 &&& 0x0000707F#32 : Word) = 0x00005063#32 ∧
    (0x0020E863#32 &&& 0x0000707F#32 : Word) = 0x00006063#32 ∧
    (0x0020F863#32 &&& 0x0000707F#32 : Word) = 0x00007063#32 ∧
    ((twoRegs .skip).reg 2#5).toInt < ((twoRegs .skip).reg 1#5).toInt ∧
    ¬ ((twoRegs .skip).reg 1#5).toInt < ((twoRegs .skip).reg 1#5).toInt ∧
    ((twoRegs .skip).reg 1#5).toInt ≤ ((twoRegs .skip).reg 1#5).toInt ∧
    ¬ ((twoRegs .skip).reg 1#5).toInt ≤ ((twoRegs .skip).reg 2#5).toInt ∧
    ((twoRegs .skip).reg 1#5).toNat < ((twoRegs .skip).reg 2#5).toNat ∧
    ¬ ((twoRegs .skip).reg 1#5).toNat < ((twoRegs .skip).reg 1#5).toNat ∧
    ((twoRegs .skip).reg 1#5).toNat ≤ ((twoRegs .skip).reg 1#5).toNat ∧
    ¬ ((twoRegs .skip).reg 2#5).toNat ≤ ((twoRegs .skip).reg 1#5).toNat := by decide

/-- A core at a HALT word. -/
def atHalt : State := machine .skip 8 8#32 0x00000063#32 [] []

theorem witness_HaltSentinel : atHalt.phase ≠ .faulted ∧ atHalt.fetch = some 0x00000063#32 := by decide

theorem witness_UpperImmediates :
    (0x123452B7#32 &&& 0x0000007F#32 : Word) = 0x00000037#32 ∧
    (0x00001317#32 &&& 0x0000007F#32 : Word) = 0x00000017#32 ∧
    (twoRegs .skip).ujExec = .skip ∧ (twoRegs .rv32i).ujExec = .rv32i := by decide

theorem witness_Jumps :
    (0x001000EF#32 &&& 0x0000007F#32 : Word) = 0x0000006F#32 ∧
    (0xFFC280E7#32 &&& 0x0000707F#32 : Word) = 0x00000067#32 ∧
    (twoRegs .skip).ujExec = .skip ∧ (twoRegs .rv32i).ujExec = .rv32i ∧
    ((twoRegs .rv32i).pc + (8#21).signExtend 32).toNat % 4 = 0 ∧ ((twoRegs .rv32i).pc + (6#21).signExtend 32).toNat % 4 ≠ 0 ∧
    ((twoRegs .rv32i).reg 1#5 + (0#12).signExtend 32).getLsbD 1 = false ∧
    ((twoRegs .rv32i).reg 1#5 + (1#12).signExtend 32).getLsbD 1 = true := by decide

theorem witness_ShiftAmountIsLowFiveBits :
    (33#32 : Word).extractLsb' 0 5 = (1#32 : Word).extractLsb' 0 5 ∧ (0xFFFFFFE0#32 : Word).extractLsb' 0 5 = 0#5 := by decide

theorem witness_EffectiveAddressMatchesExactSum :
    State.reset.admits (State.reset.effectiveAddress 0#5 255#12) = true ∧
    State.reset.admits (State.reset.effectiveAddress 0#5 256#12) = false ∧
    State.reset.admits (State.reset.effectiveAddress 0#5 0xFFC#12) = false := by decide

theorem witness_MemoryPrimitives :
    (255#32 : Word).toNat < 4 * State.reset.memSize.words ∧ 4 * State.reset.memSize.words ≤ (256#32 : Word).toNat ∧
    State.reset.mem.wf = true ∧ 62 ≠ (255#32 : Word).toNat / 4 := by decide

theorem witness_LowAddressBitsAreIgnored :
    (252#32 : Word).extractLsb' 2 30 = (255#32 : Word).extractLsb' 2 30 := by decide

theorem witness_RegisterZeroIsHardwired :
    (31#5 : RegIdx) ≠ 0#5 ∧ (30#5 : RegIdx) ≠ 31#5 ∧ nextHas (step (twoRegs .skip)) (fun _ => true) = true := by decide

theorem witness_DecodeInvertsEncode : (Instr.beq 0#5 0#5 2#13).wellFormed = true ∧ Instr.halt.wellFormed = true := by decide

theorem witness_EncodeInvertsDecode : decode 0x00000263#32 = .ok (.beq 0#5 0#5 4#13) := by decide

theorem witness_NoWordMatchesTwoRows :
    (⟨.add, 0xFE00707F#32, 0x00000033#32⟩ : OpcodeRow) ∈ opcodeRows ∧
    OpcodeRow.accepts ⟨.add, 0xFE00707F#32, 0x00000033#32⟩ 0x002081B3#32 = true := by decide

/-- One word a clause; 0x0000000B is custom-0, 0x0FF0000F is `fence`. -/
theorem witness_ListedWordsAreUnrecognised :
    (0x00000001#32 : Word).extractLsb' 0 2 ≠ 0b11#2 ∧
    ([0x0000000B#32, 0x0000002B#32, 0x0000005B#32, 0x0000007B#32, 0x0FF0000F#32, 0x00000073#32].all fun w : Word =>
      !([0b0110011#7, 0b0010011#7, 0b0000011#7, 0b0100011#7, 0b1100011#7, 0b1101111#7, 0b1100111#7, 0b0110111#7,
        0b0010111#7].contains (w.extractLsb' 0 7)) && w.extractLsb' 0 2 == 0b11#2) = true ∧
    (0x00008003#32 : Word).extractLsb' 0 7 = 0b0000011#7 ∧ (0x00008003#32 : Word).extractLsb' 12 3 ≠ 0b010#3 ∧
    (0x00208023#32 : Word).extractLsb' 0 7 = 0b0100011#7 ∧ (0x00208023#32 : Word).extractLsb' 12 3 ≠ 0b010#3 ∧
    (0x0000A063#32 : Word).extractLsb' 0 7 = 0b1100011#7 ∧ (0x0000A063#32 : Word).extractLsb' 12 3 = 0b010#3 ∧
    (0x0000B063#32 : Word).extractLsb' 0 7 = 0b1100011#7 ∧ (0x0000B063#32 : Word).extractLsb' 12 3 = 0b011#3 ∧
    (0x00009067#32 : Word).extractLsb' 0 7 = 0b1100111#7 ∧ (0x00009067#32 : Word).extractLsb' 12 3 ≠ 0b000#3 ∧
    (0x02208033#32 : Word).extractLsb' 0 7 = 0b0110011#7 ∧ (0x02208033#32 : Word).extractLsb' 25 7 ≠ 0b0000000#7 ∧
    (0x02208033#32 : Word).extractLsb' 25 7 ≠ 0b0100000#7 ∧
    (0x4000F033#32 : Word).extractLsb' 0 7 = 0b0110011#7 ∧ (0x4000F033#32 : Word).extractLsb' 25 7 = 0b0100000#7 ∧
    (0x4000F033#32 : Word).extractLsb' 12 3 ≠ 0b000#3 ∧ (0x4000F033#32 : Word).extractLsb' 12 3 ≠ 0b101#3 ∧
    (0x02009013#32 : Word).extractLsb' 0 7 = 0b0010011#7 ∧ (0x02009013#32 : Word).extractLsb' 12 3 = 0b001#3 ∧
    (0x02009013#32 : Word).extractLsb' 25 7 ≠ 0b0000000#7 ∧
    (0x4200D013#32 : Word).extractLsb' 0 7 = 0b0010011#7 ∧ (0x4200D013#32 : Word).extractLsb' 12 3 = 0b101#3 ∧
    (0x4200D013#32 : Word).extractLsb' 25 7 ≠ 0b0000000#7 ∧ (0x4200D013#32 : Word).extractLsb' 25 7 ≠ 0b0100000#7 := by decide

theorem witness_StepRunsTheDecodedInstruction :
    (twoRegs .skip).phase ≠ .faulted ∧ (twoRegs .skip).prog.words[(twoRegs .skip).pc.toNat / 4]? = some 0x00000013#32 ∧
    decode 0x00000013#32 = .ok (.addi 0#5 0#5 0#12) := by decide

theorem witness_PlacedWordIsRunNext : decode 0x00A00293#32 = .ok (.addi 5#5 0#5 10#12) := by decide

/-- A core whose pc is the first one past the program. -/
def pastTheEnd : State := machine .skip 8 32#32 0x00000013#32 [] []

theorem witness_StepPastTheEndFinishes :
    pastTheEnd.phase ≠ .faulted ∧ pastTheEnd.prog.words.length ≤ pastTheEnd.pc.toNat / 4 ∧
    State.reset.prog.words.length ≤ State.reset.pc.toNat / 4 := by decide

/-- A core that a misaligned branch has faulted. -/
def faultedCore : State := { twoRegs .skip with phase := .faulted, faultRecord := some ⟨8#32, 14#32⟩ }

theorem witness_FaultedCoreIsStuck : faultedCore.phase = .faulted ∧ faultedCore.Inv := by decide

theorem witness_UnrecognisedWordIsSkipped :
    (machine .rv32i 8 8#32 0x00000073#32 [] []).phase ≠ .faulted ∧
    (machine .rv32i 8 8#32 0x00000073#32 [] []).prog.words[(machine .rv32i 8 8#32 0x00000073#32 [] []).pc.toNat / 4]? =
      some 0x00000073#32 ∧
    decode 0x00000073#32 = .error .majorOpcode := by decide

/-- The premises of PcAdvance together, and one clause. -/
def pcAdvanceMet (s : State) (clause : State → Bool) : Bool :=
  s.phase != .faulted && s.ujExec == .skip && nextHas (step s) (fun t => t.phase != .faulted) && clause s

theorem witness_PcAdvance :
    pcAdvanceMet pastTheEnd (fun s => s.fetch == none) = true ∧
    pcAdvanceMet atHalt (fun s => s.current == some .halt) = true ∧
    pcAdvanceMet (machine .skip 8 8#32 0x00108463#32 [] []) (fun s => s.current == some (.beq 1#5 1#5 8#13)) = true ∧
    pcAdvanceMet (machine .skip 8 8#32 0x00109463#32 [] []) (fun s => s.current == some (.bne 1#5 1#5 8#13)) = true ∧
    pcAdvanceMet (machine .skip 8 8#32 0x0020C663#32 [] []) (fun s => s.current == some (.blt 1#5 2#5 12#13)) = true ∧
    pcAdvanceMet (machine .skip 8 16#32 0xFE20DEE3#32 [] []) (fun s => s.current == some (.bge 1#5 2#5 0x1FFC#13)) = true ∧
    pcAdvanceMet (machine .skip 8 8#32 0x0020E863#32 [] []) (fun s => s.current == some (.bltu 1#5 2#5 16#13)) = true ∧
    pcAdvanceMet (machine .skip 8 8#32 0x0020F863#32 [] []) (fun s => s.current == some (.bgeu 1#5 2#5 16#13)) = true ∧
    pcAdvanceMet (machine .skip 8 8#32 0x123452B7#32 [] []) (fun s => s.current == some (.lui 5#5 0x12345#20)) = true := by
  decide

/-- Each of the four phases a step can lead to is reached. -/
theorem witness_PhaseTransitions :
    nextHas (step pastTheEnd) (fun t => t.phase == .finished) = true ∧
    nextHas (step atHalt) (fun t => t.phase == .halted) = true ∧
    nextHas (step (machine .skip 8 8#32 0x00108363#32 [] [])) (fun t => t.phase == .faulted) = true ∧
    nextHas (step (machine .skip 8 28#32 0x00000013#32 [] [])) (fun t => t.phase == .finished) = true ∧
    nextHas (step (twoRegs .skip)) (fun t => t.phase == .executing) = true := by decide

theorem witness_WrappedTargetIsPastTheEnd :
    (twoRegs .skip).pc.toNat / 4 < (twoRegs .skip).progLen ∧
    ((twoRegs .skip).pc.toNat : Int) + (0x1FF4#13 : BitVec 13).toInt < 0 ∧
    0 ≤ ((twoRegs .skip).pc.toNat : Int) + (0x1FF8#13 : BitVec 13).toInt := by decide

/-- A state that meets the invariant in each phase, and a step from it. -/
theorem witness_EveryStepKeepsTheInvariant :
    State.reset.Inv ∧ ({ twoRegs .skip with phase := .executing } : State).Inv ∧
    ({ atHalt with phase := .halted } : State).Inv ∧ ({ pastTheEnd with phase := .finished } : State).Inv ∧
    faultedCore.Inv ∧ nextHas (step { twoRegs .skip with phase := .executing }) (fun _ => true) = true := by decide

theorem witness_ProgramAndParametersNeverChange :
    nextHas (Host.Core.run Sys2Proof.core 2 (twoRegs .skip)) (fun t => t.pc == 16#32) = true := by decide

/-- `sw x1, 0(x0)`: a byte of memory changes. -/
def storing : State := machine .skip 8 8#32 0x00102023#32 [(1#5, 5#32)] []

theorem witness_OnlyStoresWriteMemory :
    nextHas (step storing) (fun t => t.mem.readByte 0 != storing.mem.readByte 0) = true := by decide

/-- Two steps, and neither `addi` stores. -/
theorem witness_WordKeepsItsValueUntilStoredTo :
    nextHas (Host.Core.run Sys2Proof.core 2 (twoRegs .skip)) (fun _ => true) = true ∧
    (twoRegs .skip).current = some (.addi 0#5 0#5 0#12) ∧
    nextHas (Host.Core.run Sys2Proof.core 1 (twoRegs .skip)) (fun t => t.current == some (.addi 0#5 0#5 0#12)) = true := by
  decide

theorem witness_LoadReturnsTheStoredWord :
    storing.mem.wf = true ∧ (10#5 : RegIdx) ≠ 0#5 ∧
    (storing.reg 0#5 + (252#12).signExtend 32).toNat < 4 * storing.memSize.words ∧
    nextHas (exec (.sw 1#5 252#12 0#5) storing) (fun t =>
      (t.reg 0#5 + (255#12).signExtend 32).toNat / 4 == (storing.reg 0#5 + (252#12).signExtend 32).toNat / 4) = true := by decide

/-- A step of each kind: nothing written, a register, a word. -/
theorem witness_AtMostOneWritePerStep :
    nextHas (step atHalt) (fun _ => true) = true ∧
    nextHas (step (machine .skip 8 8#32 0x00A00293#32 [] [])) (fun t => t.reg 5#5 == 10#32) = true ∧
    nextHas (step storing) (fun t => t.mem.readWord 0 == 5#32) = true := by decide

theorem witness_DiagnosticsAreRecoveredErrors :
    nextHas (step (twoRegs .skip)) (fun t => t.diag == []) = true ∧
    nextHas (step (machine .skip 8 8#32 0x123452B7#32 [] [])) (fun t => t.diag == [⟨.unsupportedOpcode, 8#32⟩]) = true ∧
    nextHas (step (machine .skip 8 8#32 0x10002283#32 [] [])) (fun t => t.diag == [⟨.memoryOutOfBounds, 8#32⟩]) = true := by
  decide

/-- Two cores that differ in phase, run flag, log and observations only. -/
theorem witness_ObservationsDoNotInfluenceExecution :
    SameArch (twoRegs .skip) { twoRegs .skip with
      phase := .executing, running := true, diag := [⟨.unsupportedOpcode, 4#32⟩], lastReg := some 1#5 } ∧
    (twoRegs .skip).phase ≠ .faulted ∧ nextHas (step (twoRegs .skip)) (fun _ => true) = true := by decide

theorem witness_StoppedCoreStaysAsItIs :
    ({ atHalt with phase := .halted } : State).Inv ∧ ({ pastTheEnd with phase := .finished } : State).Inv ∧
    faultedCore.Inv ∧
    nextHas (Host.Core.run Sys2Proof.core 2 { atHalt with phase := .halted }) (fun _ => true) = true ∧
    nextHas (Host.Core.run Sys2Proof.core 2 { pastTheEnd with phase := .finished }) (fun _ => true) = true := by decide

/-- Offset 255 is admitted; each comparison both ways (x1 = 5, x2 = 0xFFFFFFFF), a taken one to an aligned target. -/
theorem witness_SnapshotOfCompletedInstruction :
    ((twoRegs .skip).reg 0#5 + (255#12).signExtend 32).toNat < 4 * (twoRegs .skip).memSize.words ∧
    ((twoRegs .skip).pc + (8#13).signExtend 32).toNat % 4 = 0 ∧
    (twoRegs .skip).reg 1#5 = (twoRegs .skip).reg 1#5 ∧ ¬ (twoRegs .skip).reg 1#5 = (twoRegs .skip).reg 2#5 ∧
    (twoRegs .skip).reg 1#5 ≠ (twoRegs .skip).reg 2#5 ∧ ¬ (twoRegs .skip).reg 1#5 ≠ (twoRegs .skip).reg 1#5 ∧
    ((twoRegs .skip).reg 2#5).toInt < ((twoRegs .skip).reg 1#5).toInt ∧
    ¬ ((twoRegs .skip).reg 1#5).toInt < ((twoRegs .skip).reg 1#5).toInt ∧
    ((twoRegs .skip).reg 1#5).toInt ≤ ((twoRegs .skip).reg 1#5).toInt ∧
    ¬ ((twoRegs .skip).reg 1#5).toInt ≤ ((twoRegs .skip).reg 2#5).toInt ∧
    ((twoRegs .skip).reg 1#5).toNat < ((twoRegs .skip).reg 2#5).toNat ∧
    ¬ ((twoRegs .skip).reg 1#5).toNat < ((twoRegs .skip).reg 1#5).toNat ∧
    ((twoRegs .skip).reg 1#5).toNat ≤ ((twoRegs .skip).reg 1#5).toNat ∧
    ¬ ((twoRegs .skip).reg 2#5).toNat ≤ ((twoRegs .skip).reg 1#5).toNat := by decide

/-- The snapshot of `sltu x3, x1, x2` (R142, R143). -/
theorem test_snapshot_sltu : nextHas (exec (.sltu 3#5 1#5 2#5) (twoRegs .skip)) (fun t =>
    t.signal == some ⟨.r, ⟨true, false, false, false, false⟩, .op .sltu, some 1#32, none⟩) = true := by decide

theorem witness_ResetStateAndEntryPoint : Program.empty.words = [] := by decide

/-- One round leaves the loop running, a HALT ends it. -/
theorem witness_RunLoopIsASequenceOfSteps :
    (twoRegs .skip).startRun.running = true ∧
    nextHas (runLoop 1 (twoRegs .skip).startRun) (fun t => t.running) = true ∧
    nextHas (runLoop 3 atHalt.startRun) (fun t => !t.running && t.phase == .halted) = true := by decide

/-- `run` with a step that goes on, then `run` again; `run` at a HALT; `stop`, `tick` and `run` in their two cases. -/
theorem witness_HostToggleStopAndDelay :
    (twoRegs .skip).running = false ∧ (twoRegs .skip).startRun.running = true ∧
    nextHas (step (twoRegs .skip).startRun) (fun t => t.phase == .executing) = true ∧
    nextHas (HostOp.apply .run (twoRegs .skip)) (fun u => u.running && u.pc == 12#32 &&
      nextHas (HostOp.apply .run u) (fun v => !v.running && v.pc == 12#32)) = true ∧
    atHalt.running = false ∧ nextHas (HostOp.apply .run atHalt) (fun u => !u.running && u.phase == .halted) = true := by
  decide

theorem witness_TextEncoderRoundTrip : (Instr.jalr 1#5 5#5 0xFFC#12).wellFormed = true := by decide

/-- The encoder of the text level on a value that does not fit (C7): `addi x1, x0, 5000`. -/
theorem test_encoder_truncates :
    Asm.encodeParsed .rdRs1Imm ⟨['a', 'd', 'd', 'i'], [some 1, some 0, some 5000]⟩ = .word 0x38800093#32 := by decide

end Sys2Proof.Tests
end

section
/-!
The state family (10_state.md): the program and the parameters stay (R33, R36), the invariant of the core (R26, R28,
R250), the program counter (R25), the observations (R28 to R34), x0 (R21) and the reset state (R35). Everything about a
step goes through its inversion (`step_cases`, `Effect`).
-/

namespace Sys2Proof.Machine

/-! ## Steps and instructions -/

/-- A core that is not faulted runs the instruction at its pc. -/
theorem step_of_current {s : State} {i : Instr} (hp : s.phase ≠ .faulted) (hc : s.current = some i) :
    step s = exec i s := by
  obtain ⟨w, hf, hd⟩ := decoded_of_current hc
  exact step_of_decoded hp hf hd

theorem decodeR_ne_halt (w : Word) : decodeR w ≠ .ok .halt := by
  simp [decodeR, ite_eq_iff]

theorem decodeI_ne_halt (w : Word) : decodeI w ≠ .ok .halt := by
  simp [decodeI, ite_eq_iff]

theorem decodeB_ne_halt (w : Word) : decodeB w ≠ .ok .halt := by
  simp [decodeB, ite_eq_iff]

/-- Only the HALT word decodes to HALT (R102): every row of the opcode map gives another constructor. -/
theorem eq_haltWord_of_decode_halt {w : Word} (h : decode w = .ok .halt) : w = Config.haltWord := by
  contrapose! h
  rw [decode, if_neg h]
  simp [ite_eq_iff, decodeR_ne_halt, decodeI_ne_halt, decodeB_ne_halt]

theorem exists_eq_of_isBranch {i : Instr} (h : isBranch i) : ∃ rs1 rs2 imm, i = .beq rs1 rs2 imm ∨
    i = .bne rs1 rs2 imm ∨ i = .blt rs1 rs2 imm ∨ i = .bge rs1 rs2 imm ∨ i = .bltu rs1 rs2 imm ∨
    i = .bgeu rs1 rs2 imm := by
  cases i with
  | beq rs1 rs2 imm => exact ⟨rs1, rs2, imm, by simp⟩
  | bne rs1 rs2 imm => exact ⟨rs1, rs2, imm, by simp⟩
  | blt rs1 rs2 imm => exact ⟨rs1, rs2, imm, by simp⟩
  | bge rs1 rs2 imm => exact ⟨rs1, rs2, imm, by simp⟩
  | bltu rs1 rs2 imm => exact ⟨rs1, rs2, imm, by simp⟩
  | bgeu rs1 rs2 imm => exact ⟨rs1, rs2, imm, by simp⟩
  | _ => simp [isBranch, Instr.mnemonic] at h

/-! ## The program and the parameters (R33, R36) -/

theorem SameProgram.trans {s t u : State} (h : SameProgram s t) (h' : SameProgram t u) : SameProgram s u :=
  ⟨h'.1.trans h.1, h'.2.1.trans h.2.1, h'.2.2.trans h.2.2⟩

theorem Effect.sameProgram {i : Instr} {s t : State} (h : Effect i s t) : SameProgram s t := by
  cases h with
  | wrote => simp [SameProgram]
  | stored => exact ⟨rfl, rfl, rfl⟩
  | branched => simp [SameProgram]
  | skipped => simp [SameProgram]
  | rejected => simp [SameProgram]
  | faulted => simp [SameProgram]
  | halted => simp [SameProgram]

theorem step_sameProgram {s t : State} (h : step s = .next t) : SameProgram s t := by
  obtain ⟨-, rfl⟩ | ⟨-, -, rfl⟩ | ⟨-, _, _, -, -, rfl⟩ | ⟨-, _, _, -, -, he⟩ := step_cases h
  · simp [SameProgram]
  · simp [SameProgram]
  · simp [SameProgram]
  · exact (effect_of_exec he).sameProgram

/-- Settles O39, by induction on the number of steps. -/
theorem programAndParametersNeverChange : Obligations.ProgramAndParametersNeverChange := by
  unfold Obligations.ProgramAndParametersNeverChange
  intro k
  induction k with
  | zero =>
    intro s t h
    cases h
    exact ⟨rfl, rfl, rfl⟩
  | succ k ih =>
    intro s t h
    obtain ⟨u, hu, hrun⟩ := step_of_run h
    exact (step_sameProgram hu).trans (ih u t hrun)

/-! ## The invariant (R26, R28, R250) -/

theorem memOk_of_mem_memSize {s t : State} (hm : t.mem = s.mem) (hn : t.memSize = s.memSize) : t.memOk = s.memOk := by
  unfold State.memOk
  rw [hm, memWords_of_memSize hn]

/-- A store inside the array keeps the canonical form and stays inside. -/
theorem memOk_storedState {s : State} {ea : Word} (v : Word) (sig : Signal) (hm : s.memOk = true)
    (h : s.admits ea = true) : (storedState s ea v sig).memOk = true := by
  simp only [State.memOk, Bool.and_eq_true] at hm ⊢
  exact ⟨writeWord_wf _ v hm.1, writeWord_below v hm.2 (wordIndex_lt_of_admits h)⟩

/-- Only a faulted core holds a fault record. -/
theorem faultRecord_eq_none {s : State} (h : s.phaseOk = true) (hp : s.phase ≠ .faulted) : s.faultRecord = none := by
  unfold State.phaseOk at h
  cases hph : s.phase with
  | ready => simp_all
  | executing => simp_all
  | halted => simp_all
  | finished => simp_all
  | faulted => exact absurd hph hp

/-- Going on to an aligned target re-establishes the invariant: `goTo` sets the phase that the target calls for. -/
theorem inv_goTo {s : State} {pc : Word} (hm : s.memOk = true) (hr : s.faultRecord = none)
    (hpc : alignedTarget pc = true) : (s.goTo pc).Inv := by
  refine ⟨hm, hpc, ?_⟩
  by_cases hend : s.progLen ≤ instrIndex pc
  · simp [State.phaseOk, phaseAt, hend, hr]
  · simp [State.phaseOk, phaseAt, hend, hr, Nat.lt_of_not_le hend]

theorem inv_raise {s : State} (kind : DiagKind) (hm : s.memOk = true) (hr : s.faultRecord = none)
    (hpc : s.pcAligned = true) : (s.raise kind).Inv :=
  inv_goTo hm hr (alignedTarget_add_four hpc)

theorem inv_storedState {s : State} {ea : Word} (v : Word) (sig : Signal) (hm : s.memOk = true)
    (hr : s.faultRecord = none) (hpc : s.pcAligned = true) (h : s.admits ea = true) : (storedState s ea v sig).Inv :=
  inv_goTo (memOk_storedState v sig hm h) hr (alignedTarget_add_four hpc)

theorem inv_stuck {s : State} (h : s.Inv) : s.stuck.Inv := h

theorem inv_finish {s : State} (h : s.Inv) (hp : s.phase ≠ .faulted) (hf : s.fetch = none) : s.finish.Inv := by
  obtain ⟨hm, hpc, hph⟩ := h
  refine ⟨hm, hpc, ?_⟩
  simp [State.phaseOk, (fetch_eq_none_iff s).mp hf, faultRecord_eq_none hph hp]

theorem inv_halt {s : State} (h : s.Inv) (hp : s.phase ≠ .faulted) (hf : s.fetch = some Config.haltWord) :
    s.halt.Inv := by
  obtain ⟨hm, hpc, hph⟩ := h
  refine ⟨hm, hpc, ?_⟩
  simp [State.phaseOk, hf, faultRecord_eq_none hph hp]

theorem inv_faultMisaligned {s : State} {target : Word} (h : s.Inv) (ht : alignedTarget target = false) :
    (s.faultMisaligned target).Inv := by
  obtain ⟨hm, hpc, -⟩ := h
  refine ⟨hm, hpc, ?_⟩
  simp [State.phaseOk, ht]

/-- An instruction keeps the invariant, given that HALT is run only at the HALT word. -/
theorem Effect.inv {i : Instr} {s t : State} (he : Effect i s t) (h : s.Inv) (hp : s.phase ≠ .faulted)
    (hhalt : i = .halt → s.fetch = some Config.haltWord) : t.Inv := by
  have ⟨hm, hpc, hph⟩ := h
  have hr : s.faultRecord = none := faultRecord_eq_none hph hp
  have hnext : alignedTarget (s.pc + 4#32) = true := alignedTarget_add_four hpc
  cases he with
  | wrote rd v sig pc hd htarget =>
    have hal : alignedTarget pc = true := by
      obtain rfl | ⟨hal, -, -⟩ := htarget
      · exact hnext
      · exact hal
    exact inv_goTo ((memOk_of_mem_memSize (by simp) (by simp)).trans hm) (by simpa using hr) hal
  | stored rs2 rs1 imm hi hadm => exact inv_storedState _ _ hm hr hpc hadm
  | branched sig pc hi htarget =>
    have hal : alignedTarget pc = true := by
      obtain rfl | hal := htarget
      · exact hnext
      · exact hal
    exact inv_goTo hm hr hal
  | skipped hs hi => exact inv_raise _ hm hr hpc
  | rejected r rs1 imm hi hrej => exact inv_raise _ hm hr hpc
  | faulted target hi ht => exact inv_faultMisaligned h ht
  | halted hi => exact inv_halt h hp (hhalt hi)

/-- Settles O37: the invariant through each case of the step's inversion. -/
theorem everyStepKeepsTheInvariant : Obligations.EveryStepKeepsTheInvariant := by
  unfold Obligations.EveryStepKeepsTheInvariant
  intro s t h hstep
  have ⟨hm, hpc, hph⟩ := h
  obtain ⟨-, rfl⟩ | ⟨hp, hf, rfl⟩ | ⟨hp, _, _, -, -, rfl⟩ | ⟨hp, w, i, hf, hd, he⟩ := step_cases hstep
  · exact inv_stuck h
  · exact inv_finish h hp hf
  · exact inv_raise _ hm (faultRecord_eq_none hph hp) hpc
  · refine (effect_of_exec he).inv h hp ?_
    rintro rfl
    rw [hf, eq_haltWord_of_decode_halt hd]

/-- Nothing is listed in an empty memory, so reset meets the invariant whatever the program and the parameters. -/
theorem inv_hostReset (s : State) : s.hostReset.Inv := ⟨rfl, rfl, rfl⟩

/-- Settles O38: `load` is the host's reset after a change of the program. -/
theorem resetMeetsTheInvariant : Obligations.ResetMeetsTheInvariant := by
  unfold Obligations.ResetMeetsTheInvariant
  exact ⟨inv_hostReset State.reset, fun s p => ⟨inv_hostReset s, inv_hostReset { s with prog := p }⟩⟩

/-! ## The program counter (R25, R26) -/

/-- Where a branch that does not fault goes (R210). -/
theorem classB_pc {c : Comparator} {rs1 rs2 : RegIdx} {imm : BitVec 13} {s : State}
    (h : (classB c rs1 rs2 imm s).phase ≠ .faulted) : (classB c rs1 rs2 imm s).pc =
      if c.holds (s.reg rs1) (s.reg rs2) = true then s.pc + imm.signExtend 32 else s.pc + 4#32 := by
  cases hc : c.holds (s.reg rs1) (s.reg rs2) with
  | false => simp [classB_not_taken imm hc]
  | true =>
    cases ht : alignedTarget (s.branchTarget imm) with
    | true => simp [classB_taken_aligned hc ht, State.branchTarget, immBWord]
    | false => simp [classB_taken_misaligned hc ht] at h

/-- Every instruction but HALT and the branches goes on to the next one, unless it faults or is a jump of rv32i. -/
theorem Effect.pc_add_four {i : Instr} {s t : State} (he : Effect i s t) (hs : s.ujExec = .skip) (hh : i ≠ .halt)
    (hb : ¬ isBranch i) : t.pc = s.pc + 4#32 := by
  cases he with
  | wrote rd v sig pc hd htarget =>
    obtain hpc | ⟨-, hrv, -⟩ := htarget
    · exact hpc
    · simp [hs] at hrv
  | stored => rfl
  | branched sig pc hi htarget => exact absurd hi hb
  | skipped => rfl
  | rejected => rfl
  | faulted target hi ht =>
    obtain hi | ⟨hrv, -⟩ := hi
    · exact absurd hi hb
    · simp [hs] at hrv
  | halted hi => exact absurd hi hh

/-- A step at a word goes on to the next one under `skip`, unless the word is HALT or a branch (R25). -/
theorem step_pc_add_four {s t : State} (hp : s.phase ≠ .faulted) (hs : s.ujExec = .skip) (h : step s = .next t)
    (hf : s.fetch ≠ none) (hh : s.current ≠ some .halt) (hb : ∀ i, s.current = some i → ¬ isBranch i) :
    t.pc = s.pc + 4#32 := by
  obtain ⟨hfault, -⟩ | ⟨-, hnone, -⟩ | ⟨-, _, _, -, -, rfl⟩ | ⟨-, w, i, hw, hd, he⟩ := step_cases h
  · exact absurd hfault hp
  · exact absurd hnone hf
  · rfl
  · have hc : s.current = some i := current_of_decoded hw hd
    exact (effect_of_exec he).pc_add_four hs (fun hi => hh (hi ▸ hc)) (hb i hc)

/-- The step at a branch that does not fault, for each of the six (R210, R212 to R217). -/
theorem step_branch_pc {s t : State} {i : Instr} {c : Comparator} {rs1 rs2 : RegIdx} {imm : BitVec 13}
    (hi : exec i s = .next (classB c rs1 rs2 imm s)) (hp : s.phase ≠ .faulted) (h : step s = .next t)
    (ht : t.phase ≠ .faulted) (hc : s.current = some i) :
    t.pc = if c.holds (s.reg rs1) (s.reg rs2) = true then s.pc + imm.signExtend 32 else s.pc + 4#32 := by
  rw [step_of_current hp hc, hi] at h
  cases h
  exact classB_pc ht

/-- Settles O34: the two stopping cases, the six branches by `step_branch_pc`, the rest by `step_pc_add_four`. -/
theorem pcAdvance : Obligations.PcAdvance := by
  unfold Obligations.PcAdvance
  intro s t hp hs h ht
  refine ⟨fun hf => ?_, fun hc => ?_, fun rs1 rs2 imm hc => ?_, fun rs1 rs2 imm hc => ?_, fun rs1 rs2 imm hc => ?_,
    fun rs1 rs2 imm hc => ?_, fun rs1 rs2 imm hc => ?_, fun rs1 rs2 imm hc => ?_, fun hf hh hb => ?_⟩
  · rw [step_of_fetch_none hp hf] at h
    cases h
    rfl
  · rw [step_of_current hp hc] at h
    cases h
    rfl
  · simpa only [holds_eq_iff] using step_branch_pc (c := .eq) rfl hp h ht hc
  · simpa only [holds_ne_iff] using step_branch_pc (c := .ne) rfl hp h ht hc
  · simpa only [holds_lt_iff] using step_branch_pc (c := .lt) rfl hp h ht hc
  · simpa only [holds_ge_iff] using step_branch_pc (c := .ge) rfl hp h ht hc
  · simpa only [holds_ltu_iff] using step_branch_pc (c := .ltu) rfl hp h ht hc
  · simpa only [holds_geu_iff] using step_branch_pc (c := .geu) rfl hp h ht hc
  · refine step_pc_add_four hp hs h hf hh fun i hc hi => ?_
    obtain ⟨rs1, rs2, imm, hcases⟩ := exists_eq_of_isBranch hi
    obtain ⟨h1, h2, h3, h4, h5, h6⟩ := hb rs1 rs2 imm
    obtain rfl | rfl | rfl | rfl | rfl | rfl := hcases
    exacts [h1 hc, h2 hc, h3 hc, h4 hc, h5 hc, h6 hc]

/-- The branch target is the exact sum, reduced modulo 2^32 (D3). -/
theorem toNat_branchTarget (s : State) (imm : BitVec 13) :
    ((s.branchTarget imm).toNat : Int) = ((s.pc.toNat : Int) + imm.toInt) % 2 ^ 32 := by
  have himm : ((imm.signExtend 32).toNat : Int) = imm.toInt % 2 ^ 32 := by
    rw [← BitVec.toInt_signExtend_of_le (x := imm) (v := 32) (by omega), BitVec.toInt_eq_toNat_cond]
    have := (imm.signExtend 32).isLt
    split <;> omega
  simp only [State.branchTarget, immBWord, BitVec.toNat_add]
  omega

/-- A pc inside a program is below 2^31, by the bound of R7. -/
theorem pc_lt_of_inside {s : State} (h : s.pc.toNat / 4 < s.progLen) : s.pc.toNat < 2 ^ 31 := by
  have hlen : s.progLen ≤ 2 ^ 29 := s.prog.bound
  omega

/-- Settles O36: in exact arithmetic the target lies between -2^12 and 2^31 + 2^12, so it wraps only when it is
negative, and then to an address past 2^31. -/
theorem wrappedTargetIsPastTheEnd : Obligations.WrappedTargetIsPastTheEnd := by
  unfold Obligations.WrappedTargetIsPastTheEnd
  intro s imm h
  have hpc : s.pc.toNat < 2 ^ 31 := pc_lt_of_inside h
  have hlen : s.progLen ≤ 2 ^ 29 := s.prog.bound
  have hlow : -2 ^ 12 ≤ imm.toInt := BitVec.le_toInt imm
  have hhigh : imm.toInt < 2 ^ 12 := BitVec.toInt_lt
  have htarget := toNat_branchTarget s imm
  refine ⟨fun hneg => ?_, fun hpos => ?_, ?_⟩
  · omega
  · omega
  · rw [BitVec.toNat_add, BitVec.toNat_ofNat]
    omega

/-! ## Two cores with the same architectural state (R131)

Each shared operation is taken through `SameArch` once; a step is then an instruction's own composition of them. -/

/-- The two next states agree in the architectural state and the phase, and log the same. -/
def StepsAlike (s s' t t' : State) : Prop :=
  SameArch t t' ∧ t.phase = t'.phase ∧ ∃ new, t.diag = s.diag ++ new ∧ t'.diag = s'.diag ++ new

section SameArch
variable {s s' : State}

theorem SameArch.reg (h : SameArch s s') (r : RegIdx) : s'.reg r = s.reg r := reg_of_x h.1.symm r

theorem SameArch.pc (h : SameArch s s') : s'.pc = s.pc := h.2.1.symm

theorem SameArch.fetch (h : SameArch s s') : s'.fetch = s.fetch := by
  obtain ⟨-, hpc, -, hprog, -, -⟩ := h
  exact fetch_of_prog_pc hprog.symm hpc.symm

theorem SameArch.mem (h : SameArch s s') : s'.mem = s.mem := by
  obtain ⟨-, -, hmem, -, -, -⟩ := h
  exact hmem.symm

theorem SameArch.ujExec (h : SameArch s s') : s'.ujExec = s.ujExec := by
  obtain ⟨-, -, -, -, -, huj⟩ := h
  exact huj.symm

theorem SameArch.admits (h : SameArch s s') (ea : Word) : s'.admits ea = s.admits ea := by
  obtain ⟨-, -, -, -, hsize, -⟩ := h
  unfold State.admits
  rw [memWords_of_memSize hsize.symm]

theorem SameArch.effectiveAddress (h : SameArch s s') (rs1 : RegIdx) (imm : BitVec 12) :
    s'.effectiveAddress rs1 imm = s.effectiveAddress rs1 imm := by
  simp [State.effectiveAddress, h.reg]

theorem setReg_x_of_x (h : s.x = s'.x) (rd : RegIdx) (v : Word) :
    (s.setReg rd v).x = (s'.setReg rd v).x := by
  unfold State.setReg
  split
  · exact h
  · simp [h]

theorem SameArch.commitReg (h : SameArch s s') (rd : RegIdx) (v : Word) (sig sig' : Option Signal) :
    SameArch (s.commitReg rd v sig) (s'.commitReg rd v sig') := by
  obtain ⟨hx, hpc, hmem, hprog, hsize, huj⟩ := h
  exact ⟨setReg_x_of_x hx rd v, by simpa, by simpa, by simpa, by simpa, by simpa⟩

/-- Going on to one target from states that agree, after the same additions to the log. -/
theorem StepsAlike.goTo {u u' : State} (h : SameArch u u') (pc : Word) {new : List Diag}
    (hd : u.diag = s.diag ++ new) (hd' : u'.diag = s'.diag ++ new) : StepsAlike s s' (u.goTo pc) (u'.goTo pc) := by
  obtain ⟨hx, -, hmem, hprog, hsize, huj⟩ := h
  exact ⟨⟨hx, rfl, hmem, hprog, hsize, huj⟩, by simp [State.progLen, hprog], new, hd, hd'⟩

theorem StepsAlike.commitReg_goTo (h : SameArch s s') (rd : RegIdx) (v : Word) (sig sig' : Option Signal) (pc : Word) :
    StepsAlike s s' ((s.commitReg rd v sig).goTo pc) ((s'.commitReg rd v sig').goTo pc) :=
  .goTo (h.commitReg rd v sig sig') pc (new := []) (by simp) (by simp)

theorem StepsAlike.commitReg_advance (h : SameArch s s') (rd : RegIdx) (v : Word) (sig sig' : Option Signal) :
    StepsAlike s s' (s.commitReg rd v sig).advance (s'.commitReg rd v sig').advance := by
  rw [Machine.commitReg_advance, Machine.commitReg_advance, h.pc]
  exact .commitReg_goTo h rd v sig sig' _

theorem StepsAlike.observe_goTo (h : SameArch s s') (sig : Signal) (pc : Word) :
    StepsAlike s s' ((s.observe sig none none).goTo pc) ((s'.observe sig none none).goTo pc) :=
  .goTo (u := s.observe sig none none) (u' := s'.observe sig none none) h pc (new := []) (by simp) (by simp)

theorem StepsAlike.observe_advance (h : SameArch s s') (sig : Signal) :
    StepsAlike s s' (s.observe sig none none).advance (s'.observe sig none none).advance := by
  simp only [State.advance, observe_pc, h.pc]
  exact .observe_goTo h sig _

theorem StepsAlike.raise (h : SameArch s s') (kind : DiagKind) : StepsAlike s s' (s.raise kind) (s'.raise kind) := by
  obtain ⟨hx, hpc, hmem, hprog, hsize, huj⟩ := h
  exact ⟨⟨hx, by simp [hpc], hmem, hprog, hsize, huj⟩, by simp [State.progLen, hprog, hpc], [⟨kind, s.pc⟩], rfl,
    by simp [hpc]⟩

theorem StepsAlike.faultMisaligned (h : SameArch s s') (target : Word) :
    StepsAlike s s' (s.faultMisaligned target) (s'.faultMisaligned target) :=
  ⟨h, rfl, [], by simp, by simp⟩

theorem StepsAlike.halt (h : SameArch s s') : StepsAlike s s' s.halt s'.halt := ⟨h, rfl, [], by simp, by simp⟩

theorem StepsAlike.finish (h : SameArch s s') : StepsAlike s s' s.finish s'.finish := ⟨h, rfl, [], by simp, by simp⟩

theorem StepsAlike.storedState (h : SameArch s s') (ea v : Word) (sig : Signal) :
    StepsAlike s s' (storedState s ea v sig) (storedState s' ea v sig) := by
  obtain ⟨hx, hpc, hmem, hprog, hsize, huj⟩ := h
  refine ⟨⟨hx, ?_, ?_, hprog, hsize, huj⟩, ?_, [], ?_, ?_⟩
  · simp [Machine.storedState, hpc]
  · simp [Machine.storedState, hmem]
  · simp [Machine.storedState, State.progLen, hpc, hprog]
  · simp [Machine.storedState]
  · simp [Machine.storedState]

theorem StepsAlike.classR (h : SameArch s s') (op : AluOp) (rd rs1 rs2 : RegIdx) :
    StepsAlike s s' (classR op rd rs1 rs2 s) (classR op rd rs1 rs2 s') := by
  simp only [Machine.classR, h.reg]
  exact .commitReg_advance h ..

theorem StepsAlike.classI (h : SameArch s s') (op : AluOp) (rd rs1 : RegIdx) (b : Word) :
    StepsAlike s s' (classI op rd rs1 b s) (classI op rd rs1 b s') := by
  simp only [Machine.classI, h.reg]
  exact .commitReg_advance h ..

theorem StepsAlike.classB (h : SameArch s s') (c : Comparator) (rs1 rs2 : RegIdx) (imm : BitVec 13) :
    StepsAlike s s' (classB c rs1 rs2 imm s) (classB c rs1 rs2 imm s') := by
  have hcond : c.holds (s'.reg rs1) (s'.reg rs2) = c.holds (s.reg rs1) (s.reg rs2) := by rw [h.reg, h.reg]
  have htarget : s'.branchTarget imm = s.branchTarget imm := by simp [State.branchTarget, h.pc]
  cases hc : c.holds (s.reg rs1) (s.reg rs2) with
  | false =>
    rw [classB_not_taken imm hc, classB_not_taken imm (hcond.trans hc)]
    exact .observe_advance h _
  | true =>
    cases ht : alignedTarget (s.branchTarget imm) with
    | true =>
      rw [classB_taken_aligned hc ht, classB_taken_aligned (hcond.trans hc) (htarget ▸ ht), htarget]
      exact .observe_goTo h _ _
    | false =>
      rw [classB_taken_misaligned hc ht, classB_taken_misaligned (hcond.trans hc) (htarget ▸ ht), htarget]
      exact .faultMisaligned h _

theorem StepsAlike.ujJump (h : SameArch s s') (rd : RegIdx) (target : Word) :
    StepsAlike s s' (ujJump rd target s) (ujJump rd target s') := by
  cases ht : alignedTarget target with
  | true =>
    rw [ujJump_aligned ht, ujJump_aligned ht, h.pc]
    exact .commitReg_goTo h ..
  | false =>
    rw [ujJump_misaligned ht, ujJump_misaligned ht]
    exact .faultMisaligned h _

/-- Both cores answer a next state to the instruction, and the two states are alike. -/
def ExecsAlike (i : Instr) (s s' : State) : Prop :=
  ∃ t t', exec i s = .next t ∧ exec i s' = .next t' ∧ StepsAlike s s' t t'

theorem SameArch.admits_effectiveAddress (h : SameArch s s') (rs1 : RegIdx) (imm : BitVec 12) :
    s'.admits (s'.effectiveAddress rs1 imm) = s.admits (s.effectiveAddress rs1 imm) := by
  rw [h.effectiveAddress, h.admits]

theorem execsAlike_lw (h : SameArch s s') (rd rs1 : RegIdx) (imm : BitVec 12) : ExecsAlike (.lw rd imm rs1) s s' := by
  have hadm := h.admits_effectiveAddress rs1 imm
  cases ha : s.admits (s.effectiveAddress rs1 imm) with
  | true =>
    refine ⟨_, _, execLw_of_admits rd ha, execLw_of_admits rd (hadm.trans ha), ?_⟩
    rw [h.effectiveAddress, h.mem]
    exact .commitReg_advance h ..
  | false => exact ⟨_, _, execLw_of_rejects rd ha, execLw_of_rejects rd (hadm.trans ha), .raise h _⟩

theorem execsAlike_sw (h : SameArch s s') (rs2 rs1 : RegIdx) (imm : BitVec 12) :
    ExecsAlike (.sw rs2 imm rs1) s s' := by
  have hadm := h.admits_effectiveAddress rs1 imm
  cases ha : s.admits (s.effectiveAddress rs1 imm) with
  | true =>
    refine ⟨_, _, execSw_of_admits rs2 ha, execSw_of_admits rs2 (hadm.trans ha), ?_⟩
    rw [h.effectiveAddress, h.reg]
    exact .storedState h ..
  | false => exact ⟨_, _, execSw_of_rejects rs2 ha, execSw_of_rejects rs2 (hadm.trans ha), .raise h _⟩

/-- The four U and J instructions: a recovered error under `skip`, `f` under `rv32i` (R230 to R234). -/
theorem execsAlike_upperOrJump (h : SameArch s s') {i : Instr} {f : State → State}
    (hskip : ∀ {u : State}, u.ujExec = .skip → exec i u = .next (u.raise .unsupportedOpcode))
    (hrv : ∀ {u : State}, u.ujExec = .rv32i → exec i u = .next (f u)) (hf : StepsAlike s s' (f s) (f s')) :
    ExecsAlike i s s' := by
  cases hu : s.ujExec with
  | skip => exact ⟨_, _, hskip hu, hskip (h.ujExec.trans hu), .raise h _⟩
  | rv32i => exact ⟨_, _, hrv hu, hrv (h.ujExec.trans hu), hf⟩

theorem execsAlike_of_sameArch (i : Instr) (h : SameArch s s') : ExecsAlike i s s' := by
  cases i with
  | halt => exact ⟨_, _, rfl, rfl, .halt h⟩
  | add _ _ _ => exact ⟨_, _, rfl, rfl, .classR h ..⟩
  | sub _ _ _ => exact ⟨_, _, rfl, rfl, .classR h ..⟩
  | sll _ _ _ => exact ⟨_, _, rfl, rfl, .classR h ..⟩
  | slt _ _ _ => exact ⟨_, _, rfl, rfl, .classR h ..⟩
  | sltu _ _ _ => exact ⟨_, _, rfl, rfl, .classR h ..⟩
  | xor _ _ _ => exact ⟨_, _, rfl, rfl, .classR h ..⟩
  | srl _ _ _ => exact ⟨_, _, rfl, rfl, .classR h ..⟩
  | sra _ _ _ => exact ⟨_, _, rfl, rfl, .classR h ..⟩
  | or _ _ _ => exact ⟨_, _, rfl, rfl, .classR h ..⟩
  | and _ _ _ => exact ⟨_, _, rfl, rfl, .classR h ..⟩
  | addi _ _ _ => exact ⟨_, _, rfl, rfl, .classI h ..⟩
  | slti _ _ _ => exact ⟨_, _, rfl, rfl, .classI h ..⟩
  | sltiu _ _ _ => exact ⟨_, _, rfl, rfl, .classI h ..⟩
  | xori _ _ _ => exact ⟨_, _, rfl, rfl, .classI h ..⟩
  | ori _ _ _ => exact ⟨_, _, rfl, rfl, .classI h ..⟩
  | andi _ _ _ => exact ⟨_, _, rfl, rfl, .classI h ..⟩
  | slli _ _ _ => exact ⟨_, _, rfl, rfl, .classI h ..⟩
  | srli _ _ _ => exact ⟨_, _, rfl, rfl, .classI h ..⟩
  | srai _ _ _ => exact ⟨_, _, rfl, rfl, .classI h ..⟩
  | lw rd imm rs1 => exact execsAlike_lw h rd rs1 imm
  | sw rs2 imm rs1 => exact execsAlike_sw h rs2 rs1 imm
  | beq _ _ _ => exact ⟨_, _, rfl, rfl, .classB h ..⟩
  | bne _ _ _ => exact ⟨_, _, rfl, rfl, .classB h ..⟩
  | blt _ _ _ => exact ⟨_, _, rfl, rfl, .classB h ..⟩
  | bge _ _ _ => exact ⟨_, _, rfl, rfl, .classB h ..⟩
  | bltu _ _ _ => exact ⟨_, _, rfl, rfl, .classB h ..⟩
  | bgeu _ _ _ => exact ⟨_, _, rfl, rfl, .classB h ..⟩
  | lui _ _ =>
    refine execsAlike_upperOrJump h (execLui_skip · ..) (execLui_rv32i · ..) ?_
    rw [h.pc]
    exact .commitReg_goTo h ..
  | auipc _ _ =>
    refine execsAlike_upperOrJump h (execAuipc_skip · ..) (execAuipc_rv32i · ..) ?_
    rw [h.pc]
    exact .commitReg_goTo h ..
  | jal _ _ =>
    refine execsAlike_upperOrJump h (execJal_skip · ..) (execJal_rv32i · ..) ?_
    simp only [State.jalTarget, h.pc]
    exact .ujJump h ..
  | jalr _ _ _ =>
    refine execsAlike_upperOrJump h (execJalr_skip · ..) (execJalr_rv32i · ..) ?_
    simp only [State.jalrTarget, h.reg]
    exact .ujJump h ..

end SameArch

/-- Settles O45: both cores take the same case of the step, since the pc and the program agree. -/
theorem observationsDoNotInfluenceExecution : Obligations.ObservationsDoNotInfluenceExecution := by
  unfold Obligations.ObservationsDoNotInfluenceExecution
  intro s s' t t' h hp hp' hs hs'
  obtain ⟨hfault, -⟩ | ⟨-, hf, rfl⟩ | ⟨-, w, e, hf, hd, rfl⟩ | ⟨-, w, i, hf, hd, he⟩ := step_cases hs
  · exact absurd hfault hp
  · rw [step_of_fetch_none hp' (h.fetch.trans hf)] at hs'
    cases hs'
    exact StepsAlike.finish h
  · rw [step_of_unrecognised hp' (h.fetch.trans hf) hd] at hs'
    cases hs'
    exact StepsAlike.raise h _
  · rw [step_of_decoded hp' (h.fetch.trans hf) hd] at hs'
    obtain ⟨u, u', hu, hu', halike⟩ := execsAlike_of_sameArch i h
    rw [hu] at he
    rw [hu'] at hs'
    cases he
    cases hs'
    exact halike

/-! ## x0 (R21) -/

/-- Settles O20, by the rules of register access. -/
theorem registerZeroIsHardwired : Obligations.RegisterZeroIsHardwired := by
  unfold Obligations.RegisterZeroIsHardwired
  intro s v
  exact ⟨reg_zero s, setReg_zero s v, fun r hr => reg_setReg_same s v hr, fun r q hq => reg_setReg_of_ne s v hq,
    fun t _ => reg_zero t⟩

/-! ## The reset state (R35) and the entry point (R272) -/

theorem reg_reset (r : RegIdx) : State.reset.reg r = 0#32 := by
  unfold State.reg
  split
  · rfl
  · simp [State.reset]

theorem readWord_nil (i : Nat) : Memory.readWord [] i = 0#32 := by
  simp [Memory.readWord, Memory.readByte, Config.unlistedByte]

theorem fetch_load (s : State) (p : Program) : (s.load p).fetch = p.words[0]? := by
  simp [State.fetch, instrIndex]

/-- With an empty program the first step after a load finishes (R132, R272). -/
theorem step_load_of_empty (s : State) {p : Program} (h : p.words = []) :
    step (s.load p) = .next (s.load p).finish :=
  step_of_fetch_none (by simp) (by simp [fetch_load, h])

/-- Settles O49: the fields of `State.reset`, and of `load` as the host's reset with another program. -/
theorem resetStateAndEntryPoint : Obligations.ResetStateAndEntryPoint := by
  unfold Obligations.ResetStateAndEntryPoint
  refine ⟨reg_reset, readWord_nil, rfl, rfl, rfl, rfl, rfl, rfl, rfl, fun s p => ?_⟩
  exact ⟨rfl, fetch_load s p, rfl, rfl, rfl, rfl, fun h => ⟨_, step_load_of_empty s h, finish_sameBut _⟩⟩

end Sys2Proof.Machine
end

section
/-!
The data-memory family (20_memory.md): the effective address in exact arithmetic (R53, D6), the bounds check, the word
index and the two memory primitives (R54 to R57), and what a step and a run do to the data memory (R57, R64, D25).
-/

namespace Sys2Proof.Machine

/-! ## The word index (R55) -/

/-- The word index is the vector `ea[31:2]`. -/
theorem wordIndex_eq_extract (ea : Word) : wordIndex ea = (ea.extractLsb' 2 30).toNat := by
  have hlt : ea.toNat < 2 ^ 32 := ea.isLt
  rw [wordIndex, BitVec.extractLsb'_toNat, Nat.shiftRight_eq_div_pow]
  omega

/-- The bounds check of R54, in terms of the word index alone. -/
theorem admits_iff_wordIndex_lt (s : State) (ea : Word) : s.admits ea = true ↔ wordIndex ea < s.memSize.words := by
  rw [admits_iff, wordIndex]
  omega

/-- The verdict on an address depends on its word index only. -/
theorem admits_congr (s : State) {ea ea' : Word} (h : wordIndex ea = wordIndex ea') : s.admits ea = s.admits ea' := by
  rw [Bool.eq_iff_iff, admits_iff_wordIndex_lt, admits_iff_wordIndex_lt, h]

/-- Settles O19: the verdict and both primitives use the address through its word index only. -/
theorem lowAddressBitsAreIgnored : Obligations.LowAddressBitsAreIgnored := by
  unfold Obligations.LowAddressBitsAreIgnored
  intro s ea ea' v
  refine ⟨rfl, wordIndex_eq_extract ea, fun hbits => ?_⟩
  have hidx : wordIndex ea = wordIndex ea' := by rw [wordIndex_eq_extract, wordIndex_eq_extract, hbits]
  have hadm : s.admits ea = s.admits ea' := admits_congr s hidx
  exact ⟨hadm, by rw [State.memRead, State.memRead, hadm, hidx], by rw [State.memWrite, State.memWrite, hadm, hidx]⟩

/-! ## The effective address (R53, D6) -/

/-- The effective address is the exact sum of the signed values, reduced modulo 2^32. -/
theorem toNat_effectiveAddress (s : State) (rs1 : RegIdx) (imm : BitVec 12) :
    ((s.effectiveAddress rs1 imm).toNat : Int) = ((s.reg rs1).toInt + imm.toInt) % 2 ^ 32 := by
  have hsum : s.effectiveAddress rs1 imm = BitVec.ofInt 32 ((s.reg rs1).toInt + imm.toInt) := by
    rw [BitVec.ofInt_add, BitVec.ofInt_toInt]
    rfl
  rw [hsum, BitVec.toNat_ofInt]
  omega

/-- Settles O17: the sum lies between -2^31 - 2^11 and 2^31 + 2^11. A negative one wraps to an address of at least
2^31 - 2^11, which R7 keeps outside the array; any other is the address itself. -/
theorem effectiveAddressMatchesExactSum : Obligations.EffectiveAddressMatchesExactSum := by
  unfold Obligations.EffectiveAddressMatchesExactSum
  intro s rs1 imm
  have hea := toNat_effectiveAddress s rs1 imm
  have hsize : s.memSize.words ≤ 2 ^ 29 - 2 ^ 9 := s.memSize.bound
  have hbase : -2 ^ 31 ≤ (s.reg rs1).toInt := BitVec.le_toInt _
  have hbase' : (s.reg rs1).toInt < 2 ^ 31 := BitVec.toInt_lt
  have hoff : -2 ^ 11 ≤ imm.toInt := BitVec.le_toInt imm
  have hoff' : imm.toInt < 2 ^ 11 := BitVec.toInt_lt
  rw [admits_iff_wordIndex_lt, wordIndex]
  refine ⟨rfl, ?_⟩
  obtain hneg | hpos := lt_or_ge ((s.reg rs1).toInt + imm.toInt) 0
  · have hfar : 2 ^ 31 - 2 ^ 11 ≤ (s.effectiveAddress rs1 imm).toNat := by omega
    have hout : ¬ (s.effectiveAddress rs1 imm).toNat / 4 < s.memSize.words := by omega
    exact ⟨⟨fun hin => absurd hin hout, fun ⟨hlow, _⟩ => by omega⟩, fun hin => absurd hin hout⟩
  · have hexact : ((s.effectiveAddress rs1 imm).toNat : Int) = (s.reg rs1).toInt + imm.toInt := by omega
    rw [← hexact]
    omega

/-! ## The memory primitives (R54 to R57) -/

/-- An admitted write is read back. -/
theorem memRead_of_memWrite {s t : State} {ea v : Word} (hwf : s.mem.wf = true) (h : s.memWrite ea v = some t) :
    t.memRead ea = some v := by
  cases hadm : s.admits ea with
  | false => simp [memWrite_of_rejects v hadm] at h
  | true =>
    rw [memWrite_of_admits v hadm] at h
    cases h
    have hadm' : State.admits { s with mem := s.mem.writeWord (wordIndex ea) v } ea = true := hadm
    rw [memRead_of_admits hadm', readWord_writeWord_same _ v hwf]

/-- Settles O18, by the laws of the bounds check and of word writes. -/
theorem memoryPrimitives : Obligations.MemoryPrimitives := by
  unfold Obligations.MemoryPrimitives
  intro s ea
  refine ⟨admits_iff s ea, admits_iff_wordIndex_lt s ea, wordIndex_eq_extract ea, fun hout => ?_, fun hin => ?_⟩
  · have hrej : s.admits ea = false := (rejects_iff s ea).mpr hout
    exact ⟨memRead_of_rejects hrej, fun v => memWrite_of_rejects v hrej⟩
  · have hadm : s.admits ea = true := (admits_iff s ea).mpr hin
    refine ⟨memRead_of_admits hadm, fun v hwf => ?_⟩
    have hwrite := memWrite_of_admits v hadm
    exact ⟨_, hwrite, readWord_writeWord_same _ v hwf, fun j hj => readWord_writeWord_of_ne _ v hj, rfl,
      memRead_of_memWrite hwf hwrite⟩

/-! ## What a step does to the data memory (R57, R202) -/

/-- An instruction leaves the data memory alone, or it is an admitted `sw` and writes the word it addresses. -/
theorem Effect.mem_cases {i : Instr} {s t : State} (h : Effect i s t) : t.mem = s.mem ∨
    ∃ rs2 rs1 imm, i = .sw rs2 imm rs1 ∧ s.admits (s.effectiveAddress rs1 imm) = true ∧
      t.mem = s.mem.writeWord (wordIndex (s.effectiveAddress rs1 imm)) (s.reg rs2) := by
  cases h with
  | wrote => exact .inl (by simp)
  | stored rs2 rs1 imm hi hadm => exact .inr ⟨rs2, rs1, imm, hi, hadm, rfl⟩
  | branched => exact .inl rfl
  | skipped => exact .inl rfl
  | rejected => exact .inl rfl
  | faulted => exact .inl rfl
  | halted => exact .inl rfl

/-- A step leaves the data memory alone, or it writes the one word that it stores to. -/
theorem step_mem_cases {s t : State} (h : step s = .next t) :
    t.mem = s.mem ∨ ∃ idx v, StoresTo s idx ∧ t.mem = s.mem.writeWord idx v := by
  obtain ⟨-, rfl⟩ | ⟨-, -, rfl⟩ | ⟨-, _, _, -, -, rfl⟩ | ⟨hp, w, i, hf, hd, he⟩ := step_cases h
  · exact .inl rfl
  · exact .inl rfl
  · exact .inl rfl
  · obtain hmem | ⟨rs2, rs1, imm, rfl, hadm, hmem⟩ := (effect_of_exec he).mem_cases
    · exact .inl hmem
    · exact .inr ⟨_, _, ⟨hp, rs2, imm, rs1, current_of_decoded hf hd, (admits_iff _ _).mp hadm, rfl⟩, hmem⟩

/-- Settles O40: a byte outside the word stored to is left alone. -/
theorem onlyStoresWriteMemory : Obligations.OnlyStoresWriteMemory := by
  unfold Obligations.OnlyStoresWriteMemory
  intro s t a h hchanged
  obtain hmem | ⟨idx, v, hstore, hmem⟩ := step_mem_cases h
  · exact absurd (by rw [hmem]) hchanged
  · by_cases hin : a / 4 = idx
    · rwa [hin]
    · have hout : a < 4 * idx ∨ 4 * idx + 4 ≤ a := by omega
      exact absurd (by rw [hmem, readByte_writeWord_of_outside _ v hout]) hchanged

/-! ## Along a run (R64, D25) -/

/-- A step that does not store to a word leaves the word alone. -/
theorem step_readWord_of_not_storesTo {s t : State} {idx : Nat} (h : step s = .next t) (hn : ¬ StoresTo s idx) :
    t.mem.readWord idx = s.mem.readWord idx := by
  obtain hmem | ⟨idx', v, hstore, hmem⟩ := step_mem_cases h
  · rw [hmem]
  · have hne : idx ≠ idx' := fun heq => hn (heq ▸ hstore)
    rw [hmem, readWord_writeWord_of_ne _ v hne]

/-- Settles O41, by induction on the number of steps. -/
theorem wordKeepsItsValueUntilStoredTo : Obligations.WordKeepsItsValueUntilStoredTo := by
  unfold Obligations.WordKeepsItsValueUntilStoredTo
  intro k
  induction k with
  | zero =>
    intro s t idx h _
    cases h
    rfl
  | succ k ih =>
    intro s t idx h hno
    obtain ⟨u, hu, hrun⟩ := step_of_run h
    have hfirst : u.mem.readWord idx = s.mem.readWord idx :=
      step_readWord_of_not_storesTo hu (hno 0 s (by omega) rfl)
    have hrest : t.mem.readWord idx = u.mem.readWord idx :=
      ih u t idx hrun fun j v hj hv => hno (j + 1) v (by omega) ((run_of_step hu).trans hv)
    exact hrest.trans hfirst

/-! ## A load after a store (R64, R274 b) -/

/-- An admitted `lw` completes with the word at its address in `rd` and no diagnostic (R201). -/
theorem lw_completes_of_admits {s : State} {rd rs1 : RegIdx} {imm : BitVec 12} (hrd : rd ≠ 0#5)
    (h : s.admits (s.effectiveAddress rs1 imm) = true) :
    Completes (.lw rd imm rs1) s fun t =>
      t.reg rd = s.mem.readWord (wordIndex (s.effectiveAddress rs1 imm)) ∧ t.diag = s.diag := by
  have hw := commitReg_advance_wroteReg s rd (s.mem.readWord (wordIndex (s.effectiveAddress rs1 imm)))
    (some (signalL (s.effectiveAddress rs1 imm) (immWord imm)))
  exact ⟨_, execLw_of_admits rd h, hw.dest hrd, hw.rest.1⟩

/-- An admitted `sw` stores its source at the word it addresses (R202). -/
theorem sw_storedWord_of_admits {s t : State} {rs2 rs1 : RegIdx} {imm : BitVec 12} (hwf : s.mem.wf = true)
    (h : s.admits (s.effectiveAddress rs1 imm) = true) (ht : exec (.sw rs2 imm rs1) s = .next t) :
    StoredWord s t (wordIndex (s.effectiveAddress rs1 imm)) (s.reg rs2) (s.pc + 4#32) := by
  cases (execSw_of_admits rs2 h).symm.trans ht
  exact storedState_stored _ _ _ hwf

/-- Settles O42: the load's address has the store's word index, so it is admitted and reads the stored word. -/
theorem loadReturnsTheStoredWord : Obligations.LoadReturnsTheStoredWord := by
  unfold Obligations.LoadReturnsTheStoredWord
  intro s t rs2 rs1 rd rs1' imm imm' hwf hrd hin ht hsame
  have hidx : wordIndex (t.effectiveAddress rs1' imm') = wordIndex (s.effectiveAddress rs1 imm) := hsame
  have hadm : s.admits (s.effectiveAddress rs1 imm) = true := (admits_iff _ _).mpr hin
  obtain ⟨-, hword, -, -, hdiag, -, -, -, hsize, -⟩ := sw_storedWord_of_admits hwf hadm ht
  have hadm' : t.admits (t.effectiveAddress rs1' imm') = true := by
    rw [admits_iff_wordIndex_lt, hidx, hsize]
    exact (admits_iff_wordIndex_lt _ _).mp hadm
  obtain ⟨u, hu, hreg, hdiag'⟩ := lw_completes_of_admits hrd hadm'
  exact ⟨u, hu, by rw [hreg, hidx, hword], hdiag'.trans hdiag⟩

end Sys2Proof.Machine
end

section
/-!
The encoding family (30_encoding.md): the decoder by major opcode, decode and encode as inverses of each other (R81 to
R88, R101), the opcode map (R95 to R102), the unrecognised words (R103, R104), the immediates (R89 to R94) and the text
encoder (R113 to R117).
-/

namespace Sys2Proof.Machine

/-! ## Selection by major opcode (R95, R101, R102) -/

section Selection

variable {w : Word}

theorem decode_of_opcodeR (h : opcodeOf w = 0b0110011#7) : decode w = decodeR w := by
  simp [decode, h, ne_haltWord_of_opcode (w := w)]

theorem decode_of_opcodeI (h : opcodeOf w = 0b0010011#7) : decode w = decodeI w := by
  simp [decode, h, ne_haltWord_of_opcode (w := w)]

theorem decode_of_opcodeLoad (h : opcodeOf w = 0b0000011#7) :
    decode w = if funct3Of w = 0b010#3 then .ok (.lw (rdOf w) (immIOf w) (rs1Of w)) else .error .functLoad := by
  simp [decode, h, ne_haltWord_of_opcode (w := w)]

theorem decode_of_opcodeStore (h : opcodeOf w = 0b0100011#7) :
    decode w = if funct3Of w = 0b010#3 then .ok (.sw (rs2Of w) (immSOf w) (rs1Of w)) else .error .functStore := by
  simp [decode, h, ne_haltWord_of_opcode (w := w)]

theorem decode_of_opcodeB (hw : w ≠ Config.haltWord) (h : opcodeOf w = 0b1100011#7) : decode w = decodeB w := by
  simp [decode, h, hw]

theorem decode_of_opcodeLui (h : opcodeOf w = 0b0110111#7) : decode w = .ok (.lui (rdOf w) (imm20Of w)) := by
  simp [decode, h, ne_haltWord_of_opcode (w := w)]

theorem decode_of_opcodeAuipc (h : opcodeOf w = 0b0010111#7) : decode w = .ok (.auipc (rdOf w) (imm20Of w)) := by
  simp [decode, h, ne_haltWord_of_opcode (w := w)]

theorem decode_of_opcodeJal (h : opcodeOf w = 0b1101111#7) : decode w = .ok (.jal (rdOf w) (immJOf w)) := by
  simp [decode, h, ne_haltWord_of_opcode (w := w)]

theorem decode_of_opcodeJalr (h : opcodeOf w = 0b1100111#7) :
    decode w = if funct3Of w = 0b000#3 then .ok (.jalr (rdOf w) (rs1Of w) (immIOf w)) else .error .functJalr := by
  simp [decode, h, ne_haltWord_of_opcode (w := w)]

theorem decodeI_of_funct3_one (h : funct3Of w = 0b001#3) :
    decodeI w = if funct7Of w = 0b0000000#7 then .ok (.slli (rdOf w) (rs1Of w) (shamtOf w))
      else .error .functShift := by
  simp [decodeI, h]

theorem decodeI_of_funct3_five (h : funct3Of w = 0b101#3) :
    decodeI w = if funct7Of w = 0b0000000#7 then .ok (.srli (rdOf w) (rs1Of w) (shamtOf w))
      else if funct7Of w = 0b0100000#7 then .ok (.srai (rdOf w) (rs1Of w) (shamtOf w)) else .error .functShift := by
  simp [decodeI, h]

end Selection

/-! ## Decoding an encoded instruction (R101) -/

/-- A branch word other than `beq`'s with the HALT operands is not HALT_WORD (R102). -/
theorem encodeB_ne_haltWord {imm : BitVec 13} {rs1 rs2 : RegIdx} (heven : evenB imm = true)
    (hops : isHaltOperands rs1 rs2 imm = false) :
    encodeB imm rs2 rs1 0b000#3 0b1100011#7 ≠ Config.haltWord := by
  intro h
  rw [haltWord_eq_encodeB] at h
  have h1 : rs1 = 0#5 := by simpa using congrArg rs1Of h
  have h2 : rs2 = 0#5 := by simpa using congrArg rs2Of h
  have himm : imm = 0#13 := by
    simpa only [immBOf_encodeB _ _ _ _ _ heven, immBOf_encodeB 0#13 _ _ _ _ rfl] using congrArg immBOf h
  simp [isHaltOperands, h1, h2, himm] at hops

/-- Settles O21: the major opcode of the word selects the format, whose fields are the operands. -/
theorem decodeInvertsEncode : Obligations.DecodeInvertsEncode := by
  unfold Obligations.DecodeInvertsEncode
  intro i hwf
  cases i
  case halt => rfl
  case add | sub | sll | slt | sltu | xor | srl | sra | or | and => simp [encode, decode_of_opcodeR, decodeR]
  case addi | slti | sltiu | xori | ori | andi => simp [encode, decode_of_opcodeI, decodeI]
  case slli | srli | srai => simp [encode, decode_of_opcodeI, decodeI]
  case lw => simp [encode, decode_of_opcodeLoad]
  case sw => simp [encode, decode_of_opcodeStore]
  case beq rs1 rs2 imm =>
    obtain ⟨heven, hops⟩ : evenB imm = true ∧ isHaltOperands rs1 rs2 imm = false := by
      simpa [Instr.wellFormed] using hwf
    simp [encode, decode_of_opcodeB (encodeB_ne_haltWord heven hops), decodeB, immBOf_encodeB _ _ _ _ _ heven]
  case bne | blt | bge | bltu | bgeu =>
    simp [encode, decode_of_opcodeB, ne_haltWord_of_funct3, decodeB, immBOf_encodeB _ _ _ _ _ hwf]
  case lui => simp [encode, decode_of_opcodeLui]
  case auipc => simp [encode, decode_of_opcodeAuipc]
  case jal => simp [encode, decode_of_opcodeJal, immJOf_encodeJ _ _ _ hwf]
  case jalr => simp [encode, decode_of_opcodeJalr]

/-! ## A word from what it decodes to (R81 to R88, R101) -/

theorem funct3_cases : ∀ f : BitVec 3,
    f = 0#3 ∨ f = 1#3 ∨ f = 2#3 ∨ f = 3#3 ∨ f = 4#3 ∨ f = 5#3 ∨ f = 6#3 ∨ f = 7#3 := by decide

/-- `i` is the well-formed instruction of the word `w`. -/
def EncodesTo (i : Instr) (w : Word) : Prop := encode i = w ∧ i.wellFormed = true

section Inverse

variable {w : Word} {i : Instr}

theorem encodesTo_of_decodeR (hop : opcodeOf w = 0b0110011#7) (h : decodeR w = .ok i) : EncodesTo i w := by
  have hfields := encodeR_fields w
  by_cases h7 : funct7Of w = 0b0000000#7
  · obtain h3 | h3 | h3 | h3 | h3 | h3 | h3 | h3 := funct3_cases (funct3Of w)
    all_goals
      simp [decodeR, h7, h3] at h
      subst h
      exact ⟨by simpa [encode, *] using hfields, rfl⟩
  · rw [decodeR, if_neg h7] at h
    split_ifs at h <;> cases h <;> exact ⟨by simpa [encode, *] using hfields, rfl⟩

theorem encodesTo_of_decodeI (hop : opcodeOf w = 0b0010011#7) (h : decodeI w = .ok i) : EncodesTo i w := by
  have himm := encodeI_fields w
  have hshift : encodeR (funct7Of w) (shamtOf w) (rs1Of w) (funct3Of w) (rdOf w) (opcodeOf w) = w := encodeR_fields w
  by_cases h1 : funct3Of w = 1#3
  · rw [decodeI_of_funct3_one h1] at h
    split_ifs at h with h7
    cases h
    exact ⟨by simpa [encode, *] using hshift, rfl⟩
  by_cases h5 : funct3Of w = 5#3
  · rw [decodeI_of_funct3_five h5] at h
    split_ifs at h with h7 h7 <;> cases h <;> exact ⟨by simpa [encode, *] using hshift, rfl⟩
  · obtain h3 | h3 | h3 | h3 | h3 | h3 : funct3Of w = 0#3 ∨ funct3Of w = 2#3 ∨ funct3Of w = 3#3 ∨
        funct3Of w = 4#3 ∨ funct3Of w = 6#3 ∨ funct3Of w = 7#3 := by simpa [h1, h5] using funct3_cases (funct3Of w)
    all_goals
      simp [decodeI, h3] at h
      subst h
      exact ⟨by simpa [encode, *] using himm, rfl⟩

theorem encodesTo_of_decodeB (hw : w ≠ Config.haltWord) (hop : opcodeOf w = 0b1100011#7) (h : decodeB w = .ok i) :
    EncodesTo i w := by
  have hfields := encodeB_fields w
  have heven := evenB_immBOf w
  unfold decodeB at h
  split_ifs at h with h0 <;> cases h
  · have hbeq : encode (.beq (rs1Of w) (rs2Of w) (immBOf w)) = w := by simpa [encode, *] using hfields
    refine ⟨hbeq, ?_⟩
    have hops : isHaltOperands (rs1Of w) (rs2Of w) (immBOf w) = false := by
      by_contra hops
      obtain ⟨h1, h2, himm⟩ : rs1Of w = 0#5 ∧ rs2Of w = 0#5 ∧ immBOf w = 0#13 := by
        simpa [isHaltOperands] using hops
      rw [h1, h2, himm] at hbeq
      exact hw hbeq.symm
    simp [Instr.wellFormed, heven, hops]
  all_goals exact ⟨by simpa [encode, *] using hfields, heven⟩

/-- Settles O22: the fields a format is made of are read from every bit of the word. -/
theorem encodeInvertsDecode : Obligations.EncodeInvertsDecode := by
  unfold Obligations.EncodeInvertsDecode
  intro w i h
  by_cases hw : w = Config.haltWord
  · subst hw
    cases h
    decide
  rw [decode, if_neg hw] at h
  split_ifs at h with hR hI hL hL3 hS hS3 hB hlui hauipc hjal hjalr hjalr3
  · exact encodesTo_of_decodeR hR h
  · exact encodesTo_of_decodeI hI h
  · cases h
    exact ⟨by simpa [encode, hL, hL3] using encodeI_fields w, rfl⟩
  · cases h
    exact ⟨by simpa [encode, hS, hS3] using encodeS_fields w, rfl⟩
  · exact encodesTo_of_decodeB hw hB h
  · cases h
    exact ⟨by simpa [encode, hlui] using encodeU_fields w, rfl⟩
  · cases h
    exact ⟨by simpa [encode, hauipc] using encodeU_fields w, rfl⟩
  · cases h
    exact ⟨by simpa [encode, hjal] using encodeJ_fields w, evenJ_immJOf w⟩
  · cases h
    exact ⟨by simpa [encode, hjalr, hjalr3] using encodeI_fields w, rfl⟩

end Inverse

/-! ## The opcode map (R95 to R102) -/

theorem accepts_iff (r : OpcodeRow) (w : Word) : r.accepts w = true ↔ w &&& r.mask = r.pattern := by
  simp [OpcodeRow.accepts]

/-- Two rows whose patterns agree wherever both masks look are one row. -/
theorem eq_of_patterns_agree : ∀ r ∈ opcodeRows, ∀ r' ∈ opcodeRows,
    r.pattern &&& r'.mask = r'.pattern &&& r.mask → r = r' := by decide

/-- Settles O24: the patterns of two rows that accept one word agree wherever both masks look. -/
theorem noWordMatchesTwoRows : Obligations.NoWordMatchesTwoRows := by
  unfold Obligations.NoWordMatchesTwoRows
  intro w r r' hr hr' h h'
  rw [accepts_iff] at h h'
  apply eq_of_patterns_agree r hr r' hr'
  rw [← h, ← h', BitVec.and_assoc, BitVec.and_assoc, BitVec.and_comm r.mask]

theorem haltRow_accepts_iff (w : Word) : haltRow.accepts w = true ↔ w = Config.haltWord := by
  rw [accepts_iff, show haltRow.mask = BitVec.allOnes 32 from rfl, BitVec.and_allOnes]
  rfl

section Rows

variable {w : Word}

/-- Off HALT_WORD the map gives the first of the other rows. -/
theorem rowOf_of_ne_haltWord (hw : w ≠ Config.haltWord) :
    rowOf w = (opcodeRows.find? (·.accepts w)).map (·.mnemonic) := by
  rw [rowOf, List.find?_cons_of_neg (by rwa [haltRow_accepts_iff])]

/-- Off HALT_WORD the map gives the row that accepts the word. -/
theorem rowOf_eq_of_accepts {r : OpcodeRow} (hw : w ≠ Config.haltWord) (hr : r ∈ opcodeRows)
    (h : r.accepts w = true) : rowOf w = some r.mnemonic := by
  rw [rowOf_of_ne_haltWord hw]
  cases hf : opcodeRows.find? (·.accepts w) with
  | none => exact absurd h (List.find?_eq_none.mp hf r hr)
  | some r' =>
    have haccepts : r'.accepts w = true := by simpa using List.find?_some hf
    rw [noWordMatchesTwoRows w r' r (List.mem_of_find?_eq_some hf) hr haccepts h, Option.map_some]

/-- The row with an instruction's mnemonic accepts the instruction's word. -/
theorem row_accepts_encode {i : Instr} (hi : i ≠ .halt) :
    ∃ r, opcodeRows.find? (fun r => decide (r.mnemonic = i.mnemonic)) = some r ∧ r.accepts (encode i) = true := by
  cases i
  case halt => exact absurd rfl hi
  all_goals
    refine ⟨_, rfl, ?_⟩
    simp only [accepts_iff, encode, and_maskR, and_maskI, and_maskU, funct7Of_encodeR, funct3Of_encodeR,
      opcodeOf_encodeR, funct3Of_encodeI, opcodeOf_encodeI, funct3Of_encodeS, opcodeOf_encodeS, funct3Of_encodeB,
      opcodeOf_encodeB, opcodeOf_encodeU, opcodeOf_encodeJ]
    rfl

theorem fields_of_maskR {p : Word} (h : w &&& 0xFE00707F#32 = p) :
    funct7Of w = funct7Of p ∧ funct3Of w = funct3Of p ∧ opcodeOf w = opcodeOf p := by
  simp [← h, and_maskR]

theorem fields_of_maskI {p : Word} (h : w &&& 0x0000707F#32 = p) :
    funct3Of w = funct3Of p ∧ opcodeOf w = opcodeOf p := by
  simp [← h, and_maskI]

theorem opcodeOf_of_maskU {p : Word} (h : w &&& 0x0000007F#32 = p) : opcodeOf w = opcodeOf p := by
  simp [← h, and_maskU]

theorem exists_decode_of_rowsR {r : OpcodeRow} (hr : r ∈ rowsR) (h : r.accepts w = true) :
    ∃ i, decode w = .ok i := by
  rw [accepts_iff] at h
  simp only [rowsR, List.mem_cons, List.not_mem_nil, or_false] at hr
  obtain rfl | rfl | rfl | rfl | rfl | rfl | rfl | rfl | rfl | rfl := hr
  all_goals
    obtain ⟨h7, h3, hop⟩ := fields_of_maskR h
    exact ⟨_, by rw [decode_of_opcodeR hop, decodeR, h7, h3]; rfl⟩

theorem exists_decode_of_rowsI {r : OpcodeRow} (hr : r ∈ rowsI) (h : r.accepts w = true) :
    ∃ i, decode w = .ok i := by
  rw [accepts_iff] at h
  simp only [rowsI, List.mem_cons, List.not_mem_nil, or_false] at hr
  obtain rfl | rfl | rfl | rfl | rfl | rfl | hshift := hr
  case inr.inr.inr.inr.inr.inr =>
    obtain rfl | rfl | rfl := hshift
    all_goals
      obtain ⟨h7, h3, hop⟩ := fields_of_maskR h
      exact ⟨_, by rw [decode_of_opcodeI hop, decodeI, h7, h3]; rfl⟩
  all_goals
    obtain ⟨h3, hop⟩ := fields_of_maskI h
    exact ⟨_, by rw [decode_of_opcodeI hop, decodeI, h3]; rfl⟩

theorem exists_decode_of_rowsLS {r : OpcodeRow} (hr : r ∈ rowsLS) (h : r.accepts w = true) :
    ∃ i, decode w = .ok i := by
  rw [accepts_iff] at h
  simp only [rowsLS, List.mem_cons, List.not_mem_nil, or_false] at hr
  obtain rfl | rfl := hr
  · obtain ⟨h3, hop⟩ := fields_of_maskI h
    exact ⟨_, (decode_of_opcodeLoad hop).trans (if_pos h3)⟩
  · obtain ⟨h3, hop⟩ := fields_of_maskI h
    exact ⟨_, (decode_of_opcodeStore hop).trans (if_pos h3)⟩

theorem exists_decode_of_rowsB {r : OpcodeRow} (hw : w ≠ Config.haltWord) (hr : r ∈ rowsB) (h : r.accepts w = true) :
    ∃ i, decode w = .ok i := by
  rw [accepts_iff] at h
  simp only [rowsB, List.mem_cons, List.not_mem_nil, or_false] at hr
  obtain rfl | rfl | rfl | rfl | rfl | rfl := hr
  all_goals
    obtain ⟨h3, hop⟩ := fields_of_maskI h
    exact ⟨_, by rw [decode_of_opcodeB hw hop, decodeB, h3]; rfl⟩

theorem exists_decode_of_rowsUJ {r : OpcodeRow} (hr : r ∈ rowsUJ) (h : r.accepts w = true) :
    ∃ i, decode w = .ok i := by
  rw [accepts_iff] at h
  simp only [rowsUJ, List.mem_cons, List.not_mem_nil, or_false] at hr
  obtain rfl | rfl | rfl | rfl := hr
  · exact ⟨_, decode_of_opcodeLui (opcodeOf_of_maskU h)⟩
  · exact ⟨_, decode_of_opcodeAuipc (opcodeOf_of_maskU h)⟩
  · exact ⟨_, decode_of_opcodeJal (opcodeOf_of_maskU h)⟩
  · obtain ⟨h3, hop⟩ := fields_of_maskI h
    exact ⟨_, (decode_of_opcodeJalr hop).trans (if_pos h3)⟩

/-- Every word that some row accepts decodes (R101). -/
theorem exists_decode_of_accepts {r : OpcodeRow} (hw : w ≠ Config.haltWord) (hr : r ∈ opcodeRows)
    (h : r.accepts w = true) : ∃ i, decode w = .ok i := by
  simp only [opcodeRows, List.mem_append] at hr
  obtain (((hr | hr) | hr) | hr) | hr := hr
  · exact exists_decode_of_rowsR hr h
  · exact exists_decode_of_rowsI hr h
  · exact exists_decode_of_rowsLS hr h
  · exact exists_decode_of_rowsB hw hr h
  · exact exists_decode_of_rowsUJ hr h

end Rows

/-- Settles O23: a word that decodes is accepted by its instruction's row, and a word that a row accepts decodes. -/
theorem decoderFollowsOpcodeMap : Obligations.DecoderFollowsOpcodeMap := by
  unfold Obligations.DecoderFollowsOpcodeMap
  intro w
  by_cases hw : w = Config.haltWord
  · subst hw
    decide
  cases hd : decode w with
  | ok i =>
    have hi : i ≠ .halt := by
      rintro rfl
      exact hw (eq_haltWord_of_decode_halt hd)
    obtain ⟨r, hr, haccepts⟩ := row_accepts_encode hi
    have hm : r.mnemonic = i.mnemonic := by simpa using List.find?_some hr
    rw [(encodeInvertsDecode w i hd).1] at haccepts
    simp only [rowOf_eq_of_accepts hw (List.mem_of_find?_eq_some hr) haccepts, hm]
  | error e =>
    have hnone : opcodeRows.find? (·.accepts w) = none := by
      refine List.find?_eq_none.mpr fun r hr haccepts => ?_
      obtain ⟨i, hi⟩ := exists_decode_of_accepts hw hr haccepts
      rw [hd] at hi
      cases hi
    rw [rowOf_of_ne_haltWord hw, hnone, Option.map_none]

/-! ## Unrecognised words (R103, R104) -/

theorem decode_of_unlisted_opcode {w : Word}
    (h : opcodeOf w ∉ [0b0110011#7, 0b0010011#7, 0b0000011#7, 0b0100011#7, 0b1100011#7, 0b1101111#7, 0b1100111#7,
      0b0110111#7, 0b0010111#7]) : decode w = .error .majorOpcode := by
  simp only [List.mem_cons, List.not_mem_nil, or_false, not_or] at h
  obtain ⟨hR, hI, hL, hS, hB, hjal, hjalr, hlui, hauipc⟩ := h
  simp [decode, ne_haltWord_of_opcode, *]

/-- Settles O25: each listed word fails the selection that `DecodeError` names. -/
theorem listedWordsAreUnrecognised : Obligations.ListedWordsAreUnrecognised := by
  unfold Obligations.ListedWordsAreUnrecognised
  refine ⟨⟨.majorOpcode, by decide⟩, ⟨.majorOpcode, by decide⟩, fun w => ⟨fun hlow => ?_, fun hop => ?_,
    fun hop h3 => ?_, fun hop h3 => ?_, fun hop h3 => ?_, fun hop h3 => ?_, fun hop h7 h7' => ?_, fun hop h7 h3 h3' => ?_,
    fun hop h3 h7 => ?_, fun hop h3 h7 h7' => ?_⟩⟩
  · have hlow' : (opcodeOf w).extractLsb' 0 2 ≠ 0b11#2 := by
      rwa [opcodeOf, BitVec.extractLsb'_extractLsb'_of_le (by decide)]
    refine ⟨_, decode_of_unlisted_opcode fun hmem => hlow' ?_⟩
    revert hmem
    generalize opcodeOf w = op
    revert op
    decide
  · exact ⟨_, decode_of_unlisted_opcode hop⟩
  · exact ⟨_, (decode_of_opcodeLoad hop).trans (if_neg h3)⟩
  · exact ⟨_, (decode_of_opcodeStore hop).trans (if_neg h3)⟩
  · refine ⟨.functBranch, ?_⟩
    obtain h3 | h3 : funct3Of w = 0b010#3 ∨ funct3Of w = 0b011#3 := h3
    all_goals rw [decode_of_opcodeB (ne_haltWord_of_funct3 (by rw [h3]; decide)) hop, decodeB, h3]; rfl
  · exact ⟨_, (decode_of_opcodeJalr hop).trans (if_neg h3)⟩
  · exact ⟨_, (decode_of_opcodeR hop).trans ((if_neg h7).trans (if_neg h7'))⟩
  · exact ⟨.functR, by rw [decode_of_opcodeR hop, decodeR, show funct7Of w = _ from h7]; simp [funct3Of, h3, h3']⟩
  · exact ⟨_, (decode_of_opcodeI hop).trans ((decodeI_of_funct3_one h3).trans (if_neg h7))⟩
  · exact ⟨_, (decode_of_opcodeI hop).trans ((decodeI_of_funct3_five h3).trans ((if_neg h7).trans (if_neg h7')))⟩

/-- Settles O31: the step of an unrecognised word is the primitive `raise`. -/
theorem unrecognisedWordIsSkipped : Obligations.UnrecognisedWordIsSkipped := by
  unfold Obligations.UnrecognisedWordIsSkipped
  intro s w e hp hf hd
  exact ⟨s.raise .unsupportedOpcode, step_of_unrecognised hp hf hd, raise_raised s .unsupportedOpcode⟩

/-- Settles O26: one word a format, decoded by running the decoder. -/
theorem sampleWordsDecode : Obligations.SampleWordsDecode := by
  unfold Obligations.SampleWordsDecode
  decide

/-! ## The immediates (R89 to R94) -/

/-- Two slices whose bits agree are equal. -/
theorem extractLsb'_congr {n m len a b : Nat} {x : BitVec n} {y : BitVec m}
    (h : ∀ i < len, x.getLsbD (a + i) = y.getLsbD (b + i)) : x.extractLsb' a len = y.extractLsb' b len := by
  apply BitVec.eq_of_getLsbD_eq
  intro i hi
  simp [hi, h i hi]

/-- The range of a sign-extended field of `n + 1` bits. -/
theorem toInt_signExtend_bounds {n k : Nat} (x : BitVec (n + 1)) (h : n + 1 ≤ k) :
    -2 ^ n ≤ (x.signExtend k).toInt ∧ (x.signExtend k).toInt ≤ 2 ^ n - 1 := by
  rw [BitVec.toInt_signExtend_of_le h]
  have hlo := BitVec.le_toInt x
  have hhi := BitVec.toInt_lt (x := x)
  simp only [Nat.add_sub_cancel] at hlo hhi
  omega

theorem toNat_mod_two_of_bit_zero {n : Nat} {x : BitVec n} (h : x.getLsbD 0 = false) : x.toNat % 2 = 0 := by
  have := Nat.testBit_zero x.toNat
  rw [BitVec.testBit_toNat, h] at this
  simpa using this.symm

/-- The range of a sign-extended even field of `n + 2` bits. -/
theorem toInt_signExtend_even_bounds {n k : Nat} {x : BitVec (n + 2)} (h0 : x.getLsbD 0 = false) (h : n + 2 ≤ k) :
    -2 ^ (n + 1) ≤ (x.signExtend k).toInt ∧ (x.signExtend k).toInt ≤ 2 ^ (n + 1) - 2 := by
  obtain ⟨hlo, hhi⟩ := toInt_signExtend_bounds x h
  have heven : (x.signExtend k).toInt % 2 = 0 := by
    rw [BitVec.toInt_signExtend_of_le h, BitVec.toInt_eq_toNat_cond, Nat.pow_succ]
    have := toNat_mod_two_of_bit_zero h0
    split <;> omega
  omega

/-- Settles O16: slice by slice the bits of the immediates, and the ranges of even and of arbitrary fields. -/
theorem immediateFields : Obligations.ImmediateFields := by
  unfold Obligations.ImmediateFields
  intro w
  have hB0 : (immBOf w).getLsbD 0 = false := immBOf_bit w 0 (by decide)
  have hJ0 : (immJOf w).getLsbD 0 = false := immJOf_bit w 0 (by decide)
  refine ⟨rfl, rfl, rfl, ?_, ?_, ?_, ?_, ?_, ?_, hB0, ?_, ?_, ?_, ?_, hJ0,
    toInt_signExtend_bounds (n := 11) _ (by decide), toInt_signExtend_bounds (n := 11) _ (by decide),
    toInt_signExtend_even_bounds (n := 11) hB0 (by decide), toInt_signExtend_even_bounds (n := 19) hJ0 (by decide)⟩
  all_goals
    refine extractLsb'_congr fun i hi => ?_
    grind [immSOf_bit, immBOf_bit, immJOf_bit]

/-! ## A displacement through its format (R117) -/

/-- A vector that has the bits of `y` but for bit 0, which is clear. -/
theorem toNat_eq_sub_mod_two {n : Nat} {x y : BitVec n} (h0 : x.getLsbD 0 = false)
    (h : ∀ i, 0 < i → i < n → x.getLsbD i = y.getLsbD i) : x.toNat = y.toNat - y.toNat % 2 := by
  have heven := toNat_mod_two_of_bit_zero h0
  have hhalf : x.toNat / 2 = y.toNat / 2 := by
    apply Nat.eq_of_testBit_eq
    intro i
    rw [← Nat.testBit_succ, ← Nat.testBit_succ, BitVec.testBit_toNat, BitVec.testBit_toNat]
    by_cases hi : i + 1 < n
    · exact h (i + 1) i.succ_pos hi
    · rw [BitVec.getLsbD_of_ge x _ (by omega), BitVec.getLsbD_of_ge y _ (by omega)]
  omega

theorem toNat_immBOf_encodeB (imm : BitVec 13) (rs2 rs1 : RegIdx) (f3 : BitVec 3) (op : BitVec 7) :
    (immBOf (encodeB imm rs2 rs1 f3 op)).toNat = imm.toNat - imm.toNat % 2 := by
  refine toNat_eq_sub_mod_two (immBOf_bit _ 0 (by decide)) fun i hpos hi => ?_
  grind [immBOf_bit, encodeB_bit]

theorem toNat_immJOf_encodeJ (imm : BitVec 21) (rd : RegIdx) (op : BitVec 7) :
    (immJOf (encodeJ imm rd op)).toNat = imm.toNat - imm.toNat % 2 := by
  refine toNat_eq_sub_mod_two (immJOf_bit _ 0 (by decide)) fun i hpos hi => ?_
  grind [immJOf_bit, encodeJ_bit]

theorem toNat_ofInt_eq_emod (n : Nat) (v : Int) : ((BitVec.ofInt n v).toNat : Int) = v % 2 ^ n := by
  rw [BitVec.toNat_ofInt, Int.toNat_of_nonneg (Int.emod_nonneg _ (by positivity))]
  norm_cast

/-! ## The text encoder (R113 to R117) -/

theorem mnemonic_ne_halt {i : Instr} (hi : i ≠ .halt) : i.mnemonic ≠ .halt := by
  cases i
  case halt => exact absurd rfl hi
  all_goals exact Mnemonic.noConfusion

namespace Asm

theorem mnemonicOf_spelling {m : Mnemonic} (h : m ≠ .halt) : mnemonicOf (spelling m) = some m := by
  cases m
  case halt => exact absurd rfl h
  all_goals rfl

theorem numbers_map_some (l : List Int) : numbers (l.map some) = some l := by
  induction l with
  | nil => rfl
  | cons v l ih => simp [numbers, ih]

/-- The encoder on a mnemonic and arguments that are all numbers (R116). -/
theorem encodeParsed_of_instrOf {order : JalrOrder} {m : Mnemonic} {args : List (Option Int)} {vs : List Int}
    {i : Instr} (hm : m ≠ .halt) (hvs : numbers (args.take 3) = some vs) (hi : instrOf order m vs = some i) :
    encodeParsed order ⟨spelling m, args⟩ = .word (encode i) := by
  simp [encodeParsed, mnemonicOf_spelling hm, hvs, hi]

@[simp] theorem regOperand_regInt (r : RegIdx) : regOperand (regInt r) = some r := by
  have := r.isLt
  rw [regOperand, if_pos (by unfold regInt; omega)]
  simp [regInt]

@[simp] theorem ofInt_regInt (r : BitVec 5) : BitVec.ofInt 5 (regInt r) = r := by simp [regInt]

theorem length_operandList (order : JalrOrder) (i : Instr) : (operandList order i).length ≤ 3 := by
  cases i <;> simp [operandList]
  cases order <;> simp

/-- The arguments of an instruction's line are its operands. -/
theorem numbers_parsedOf (order : JalrOrder) (i : Instr) :
    numbers ((parsedOf order i).args.take 3) = some (operandList order i) := by
  rw [parsedOf, List.take_of_length_le (by simpa using length_operandList order i), numbers_map_some]

theorem instrOf_operandList (order : JalrOrder) {i : Instr} (h : i ≠ .halt) :
    instrOf order i.mnemonic (operandList order i) = some i := by
  cases i
  case halt => exact absurd rfl h
  case jalr => cases order <;> simp [Instr.mnemonic, operandList, instrOf]
  all_goals simp [Instr.mnemonic, operandList, instrOf]

/-- A field of the word that the encoder makes is that field of the instruction's word. -/
theorem exists_word_of_instrOf {order : JalrOrder} {m : Mnemonic} {args : List (Option Int)} {vs : List Int}
    {i : Instr} {n : Nat} {field : Word → BitVec n} {x : Int} (hm : m ≠ .halt) (hvs : numbers (args.take 3) = some vs)
    (hi : instrOf order m vs = some i) (hx : ((field (encode i)).toNat : Int) = x) :
    ∃ w, encodeParsed order ⟨spelling m, args⟩ = .word w ∧ ((field w).toNat : Int) = x :=
  ⟨encode i, encodeParsed_of_instrOf hm hvs hi, hx⟩

end Asm

/-- Settles O52: the operands are read back as they were written, so the encoder's word is the instruction's. HALT is
written as `beq x0, x0, 0`, which has its word (R115). -/
theorem textEncoderRoundTrip : Obligations.TextEncoderRoundTrip := by
  unfold Obligations.TextEncoderRoundTrip
  intro order i hwf
  refine ⟨encode i, ?_, decodeInvertsEncode i hwf⟩
  by_cases hi : i = .halt
  · subst hi
    rfl
  · exact Asm.encodeParsed_of_instrOf (mnemonic_ne_halt hi) (Asm.numbers_parsedOf order i)
      (Asm.instrOf_operandList order hi)

/-- Settles O53: `BitVec.ofInt` reduces the value modulo the field, and the format returns the field. -/
theorem encoderTruncatesToTheField : Obligations.EncoderTruncatesToTheField := by
  unfold Obligations.EncoderTruncatesToTheField
  intro order a b v
  have h5 : ((BitVec.ofInt 5 v).toNat : Int) = v % 32 := toNat_ofInt_eq_emod 5 v
  have h12 : ((BitVec.ofInt 12 v).toNat : Int) = v % 4096 := toNat_ofInt_eq_emod 12 v
  have h13 : ((BitVec.ofInt 13 v).toNat : Int) = v % 8192 := toNat_ofInt_eq_emod 13 v
  have h20 : ((BitVec.ofInt 20 v).toNat : Int) = v % 1048576 := toNat_ofInt_eq_emod 20 v
  have h21 : ((BitVec.ofInt 21 v).toNat : Int) = v % 2097152 := toNat_ofInt_eq_emod 21 v
  refine ⟨?_, ?_, ?_, ?_, ?_, ?_, ?_, ?_⟩
  · rintro m (rfl | rfl | rfl | rfl | rfl | rfl)
    all_goals
      exact Asm.exists_word_of_instrOf (by decide) rfl (by simp only [Asm.instrOf, Asm.regOperand_regInt]; rfl)
        (by rw [encode, immIOf_encodeI, h12])
  · rintro m (rfl | rfl | rfl)
    all_goals
      exact Asm.exists_word_of_instrOf (by decide) rfl (by simp only [Asm.instrOf, Asm.regOperand_regInt]; rfl)
        (by rw [encode, shamtOf_encodeR, h5])
  · exact Asm.exists_word_of_instrOf (by decide) rfl (by simp only [Asm.instrOf, Asm.regOperand_regInt]; rfl)
      (by rw [encode, immIOf_encodeI, h12])
  · exact Asm.exists_word_of_instrOf (by decide) rfl (by simp only [Asm.instrOf, Asm.regOperand_regInt]; rfl)
      (by rw [encode, immSOf_encodeS, h12])
  · cases order
    all_goals
      exact Asm.exists_word_of_instrOf (by decide) rfl (by simp only [Asm.instrOf, Asm.regOperand_regInt]; rfl)
        (by rw [encode, immIOf_encodeI, h12])
  · rintro m (rfl | rfl | rfl | rfl | rfl | rfl)
    all_goals
      exact Asm.exists_word_of_instrOf (by decide) rfl (by simp only [Asm.instrOf, Asm.regOperand_regInt]; rfl)
        (by rw [encode, toNat_immBOf_encodeB]; omega)
  · rintro m (rfl | rfl)
    all_goals
      exact Asm.exists_word_of_instrOf (by decide) rfl (by simp only [Asm.instrOf, Asm.regOperand_regInt]; rfl)
        (by rw [encode, imm20Of_encodeU, h20])
  · exact Asm.exists_word_of_instrOf (by decide) rfl (by simp only [Asm.instrOf, Asm.regOperand_regInt]; rfl)
      (by rw [encode, toNat_immJOf_encodeJ]; omega)

end Sys2Proof.Machine
end

section
/-!
The step and decode family (40_step_and_decode.md): which word a step runs (R131 to R135), the phases (R139), what a step
writes and logs (R136, R137), the stopped core (R132, R134, R139), the run loop and the host's controls (R140, R281), and
the snapshot of a completed instruction (R141 to R146).
-/

namespace Sys2Proof.Machine

/-! ## The word a step runs (R131 to R135) -/

theorem decode_haltWord : decode Config.haltWord = .ok .halt := if_pos rfl

/-- Settles O27: fetch is the word at the instruction index. -/
theorem stepRunsTheDecodedInstruction : Obligations.StepRunsTheDecodedInstruction := by
  unfold Obligations.StepRunsTheDecodedInstruction
  intro s w i hp hf hd
  exact step_of_decoded hp hf hd

/-- A placed word is found where it was placed, inside the list and past its end. -/
theorem getElem?_placeWord (ws : List Word) (k : Nat) (w : Word) : (placeWord ws k w)[k]? = some w := by
  unfold placeWord
  split
  · next h => exact List.getElem?_set_self h
  · next h =>
    rw [← List.append_assoc, List.getElem?_append_right (by simp; omega)]
    simp [show k - (ws.length + (k - ws.length)) = 0 by omega]

theorem getElem?_place (p : Program) {k : Nat} (w : Word) (h : k < Config.maxProgLen) :
    (p.place k w).words[k]? = some w := by
  simp only [Program.place, dif_pos h]
  exact getElem?_placeWord p.words k w

/-- Placing a word makes it the one fetched: a pc past the bound of R7 is set to 0 first. -/
theorem fetch_placeFetch (s : State) (w : Word) : (s.placeFetch w).fetch = some w := by
  unfold State.placeFetch State.fetch
  split
  · next h => exact getElem?_place s.prog w h
  · exact getElem?_place s.prog w (k := instrIndex 0#32) (by decide)

theorem placeFetch_phase_ne_faulted (s : State) (w : Word) : (s.placeFetch w).phase ≠ .faulted := by
  simp only [State.placeFetch]
  split
  · decide
  · next h => exact h

theorem withFetchWord_toNat (s : State) (w : Word) : s.withFetchWord 32 w.toNat = s.placeFetch w := by
  rw [State.withFetchWord, Nat.mod_eq_of_lt w.isLt, BitVec.ofNat_toNat, BitVec.setWidth_eq]

/-- Settles O28: the core with the word placed is not faulted and fetches the word. -/
theorem placedWordIsRunNext : Obligations.PlacedWordIsRunNext := by
  unfold Obligations.PlacedWordIsRunNext
  intro s w i hd
  rw [withFetchWord_toNat]
  exact step_of_decoded (placeFetch_phase_ne_faulted s w) (fetch_placeFetch s w) hd

/-- Settles O29: the pc stays past the end, so the next step finishes again. -/
theorem stepPastTheEndFinishes : Obligations.StepPastTheEndFinishes := by
  unfold Obligations.StepPastTheEndFinishes
  intro s hp hend
  have hf : s.fetch = none := (fetch_eq_none_iff s).mpr hend
  have hagain : step s.finish = .next s.finish.finish := step_of_fetch_none (by simp) (by simpa using hf)
  exact ⟨s.finish, step_of_fetch_none hp hf, finish_sameBut s, s.finish.finish, hagain, finish_sameBut s.finish⟩

/-- Settles O30, by induction on the number of steps: a stuck step leaves the core faulted. -/
theorem faultedCoreIsStuck : Obligations.FaultedCoreIsStuck := by
  unfold Obligations.FaultedCoreIsStuck
  intro s hp k
  induction k generalizing s with
  | zero => exact ⟨s, rfl, rfl⟩
  | succ k ih =>
    obtain ⟨t, hrun, hsame⟩ := ih s.stuck hp
    exact ⟨t, (run_of_step (step_of_faulted hp)).trans hrun, (stuck_sameBut s).trans hsame⟩

/-! ## The phases (R139) -/

/-- An instruction halts, faults at a misaligned target, or goes on in the phase that the new pc calls for. -/
theorem Effect.phase_cases {i : Instr} {s t : State} (h : Effect i s t) :
    (i = .halt ∧ t.phase = .halted) ∨ (∃ target, target.toNat % 4 ≠ 0 ∧ FaultedAt s t target) ∨
      t.phase = phaseAt s.progLen t.pc := by
  cases h with
  | wrote => exact .inr (.inr (by simp))
  | stored => exact .inr (.inr rfl)
  | branched => exact .inr (.inr rfl)
  | skipped => exact .inr (.inr rfl)
  | rejected => exact .inr (.inr rfl)
  | faulted target hi ht =>
    have hmis : target.toNat % 4 ≠ 0 := fun hal => by simp [(alignedTarget_iff target).mpr hal] at ht
    exact .inr (.inl ⟨target, hmis, faultMisaligned_faultedAt s target⟩)
  | halted hi => exact .inl ⟨hi, rfl⟩

theorem lt_progLen_of_fetch {s : State} {w : Word} (h : s.fetch = some w) : s.pc.toNat / 4 < s.progLen := by
  by_contra hend
  rw [(fetch_eq_none_iff s).mpr (Nat.le_of_not_lt hend)] at h
  cases h

/-- Settles O35: past the end, an unrecognised word, and the cases of the decoded instruction. -/
theorem phaseTransitions : Obligations.PhaseTransitions := by
  unfold Obligations.PhaseTransitions
  intro s t hp h
  obtain ⟨hfault, -⟩ | ⟨-, hf, rfl⟩ | ⟨-, w, e, hf, hd, rfl⟩ | ⟨-, w, i, hf, hd, he⟩ := step_cases h
  · exact absurd hfault hp
  · exact .inl ⟨(fetch_eq_none_iff s).mp hf, rfl⟩
  · have hw : s.fetch ≠ some Config.haltWord := by
      rw [hf]
      rintro ⟨rfl⟩
      simp [decode_haltWord] at hd
    exact .inr (.inr ⟨lt_progLen_of_fetch hf, hw, .inr rfl⟩)
  · by_cases hw : w = Config.haltWord
    · subst hw
      rw [decode_haltWord] at hd
      cases hd
      cases he
      exact .inr (.inl ⟨hf, rfl⟩)
    · refine .inr (.inr ⟨lt_progLen_of_fetch hf, fun hfw => hw (Option.some.inj (hf.symm.trans hfw)), ?_⟩)
      obtain ⟨rfl, -⟩ | ⟨target, hmis, hat⟩ | hph := (effect_of_exec he).phase_cases
      · exact absurd (eq_haltWord_of_decode_halt hd) hw
      · exact .inl ⟨hat.phase, hat.pc, hat.running, target, hmis, hat.record⟩
      · exact .inr hph

/-! ## What a step writes and logs (R136, R137) -/

/-- An instruction writes nothing, or its destination register, or the word that an admitted `sw` addresses. -/
theorem Effect.write_cases {i : Instr} {s t : State} (h : Effect i s t) :
    (SameRegs s t ∧ SameBytes s t) ∨
    (SameBytes s t ∧ ∃ rd, destination i = some rd ∧ ∀ q, q ≠ rd → t.reg q = s.reg q) ∨
    (SameRegs s t ∧ ∃ rs2 rs1 imm, i = .sw rs2 imm rs1 ∧ s.admits (s.effectiveAddress rs1 imm) = true ∧
      ∀ a, a < 4 * wordIndex (s.effectiveAddress rs1 imm) ∨ 4 * wordIndex (s.effectiveAddress rs1 imm) + 4 ≤ a →
        t.mem.readByte a = s.mem.readByte a) := by
  cases h with
  | wrote rd v sig pc hd =>
    have hw := commitReg_goTo_wroteReg s rd v sig pc
    exact .inr (.inl ⟨hw.mem, rd, hd, hw.others⟩)
  | stored rs2 rs1 imm hi hadm =>
    exact .inr (.inr ⟨fun q => reg_of_x rfl q, rs2, rs1, imm, hi, hadm,
      fun a ha => readByte_writeWord_of_outside s.mem (s.reg rs2) ha⟩)
  | branched sig pc =>
    have hw := observe_goTo_wroteNothing s sig none none pc
    exact .inl ⟨hw.regs, hw.mem⟩
  | skipped => exact .inl ⟨(raise_raised s _).regs, (raise_raised s _).mem⟩
  | rejected => exact .inl ⟨(raise_raised s _).regs, (raise_raised s _).mem⟩
  | faulted target => exact .inl ⟨(faultMisaligned_faultedAt s target).regs, (faultMisaligned_faultedAt s target).mem⟩
  | halted => exact .inl ⟨fun q => halt_reg s q, fun _ => rfl⟩

/-- Settles O43: a step that runs no instruction writes nothing. -/
theorem atMostOneWritePerStep : Obligations.AtMostOneWritePerStep := by
  unfold Obligations.AtMostOneWritePerStep
  intro s t h
  obtain ⟨-, rfl⟩ | ⟨-, -, rfl⟩ | ⟨-, w, e, -, -, rfl⟩ | ⟨hp, w, i, hf, hd, he⟩ := step_cases h
  · exact .inl ⟨fun q => stuck_reg s q, fun _ => rfl⟩
  · exact .inl ⟨fun q => finish_reg s q, fun _ => rfl⟩
  · exact .inl ⟨(raise_raised s _).regs, (raise_raised s _).mem⟩
  · have hc : s.current = some i := current_of_decoded hf hd
    obtain hnone | ⟨hmem, rd, hdest, hothers⟩ | ⟨hregs, rs2, rs1, imm, rfl, hadm, hout⟩ :=
      (effect_of_exec he).write_cases
    · exact .inl hnone
    · exact .inr (.inl ⟨hmem, hp, i, rd, hc, hdest, hothers⟩)
    · exact .inr (.inr ⟨hregs, hp, rs2, rs1, imm, hc, hadm, hout⟩)

/-- An instruction logs nothing, or it is one of U and J under `skip`, or a `lw` or `sw` whose address is rejected. -/
theorem Effect.diag_cases {i : Instr} {s t : State} (h : Effect i s t) :
    t.diag = s.diag ∨ (Raised s t .unsupportedOpcode ∧ s.ujExec = .skip ∧ isUpperOrJump i) ∨
    (Raised s t .memoryOutOfBounds ∧ ∃ r rs1 imm, (i = .lw r imm rs1 ∨ i = .sw r imm rs1) ∧
      s.admits (s.effectiveAddress rs1 imm) = false) := by
  cases h with
  | wrote => exact .inl (by simp)
  | stored => exact .inl rfl
  | branched => exact .inl rfl
  | skipped hs hi => exact .inr (.inl ⟨raise_raised s _, hs, hi⟩)
  | rejected r rs1 imm hi hrej => exact .inr (.inr ⟨raise_raised s _, r, rs1, imm, hi, hrej⟩)
  | faulted => exact .inl rfl
  | halted => exact .inl rfl

theorem current_of_unrecognised {s : State} {w : Word} {e : DecodeError} (hf : s.fetch = some w)
    (hd : decode w = .error e) : s.current = none := by
  simp [State.current, hf, hd]

/-- Settles O44: an unrecognised word is one cause, the instruction's own cases are the others. -/
theorem diagnosticsAreRecoveredErrors : Obligations.DiagnosticsAreRecoveredErrors := by
  unfold Obligations.DiagnosticsAreRecoveredErrors
  intro s t h
  obtain ⟨-, rfl⟩ | ⟨-, -, rfl⟩ | ⟨-, w, e, hf, hd, rfl⟩ | ⟨-, w, i, hf, hd, he⟩ := step_cases h
  · exact .inl rfl
  · exact .inl rfl
  · exact .inr (.inl ⟨raise_raised s _, .inl (current_of_unrecognised hf hd)⟩)
  · have hc : s.current = some i := current_of_decoded hf hd
    obtain hsame | ⟨hraised, hs, hi⟩ | ⟨hraised, r, rs1, imm, hi, hrej⟩ := (effect_of_exec he).diag_cases
    · exact .inl hsame
    · exact .inr (.inl ⟨hraised, .inr ⟨hs, i, hc, hi⟩⟩)
    · have hout : 4 * s.memSize.words ≤ (s.reg rs1 + imm.signExtend 32).toNat := (rejects_iff _ _).mp hrej
      obtain rfl | rfl := hi
      · exact .inr (.inr ⟨hraised, r, rs1, imm, .inl hc, hout⟩)
      · exact .inr (.inr ⟨hraised, r, rs1, imm, .inr hc, hout⟩)

/-! ## The stopped core (R132, R134, R139) -/

/-- A halted core that meets the invariant stands at the HALT word. -/
theorem fetch_of_halted {s : State} (h : s.Inv) (hp : s.phase = .halted) : s.fetch = some Config.haltWord := by
  obtain ⟨-, -, hph⟩ := h
  simp only [State.phaseOk, hp, Bool.and_eq_true, beq_iff_eq] at hph
  exact hph.1

/-- A finished core that meets the invariant stands past the program. -/
theorem fetch_of_finished {s : State} (h : s.Inv) (hp : s.phase = .finished) : s.fetch = none := by
  obtain ⟨-, -, hph⟩ := h
  simp only [State.phaseOk, hp, Bool.and_eq_true, decide_eq_true_eq] at hph
  exact (fetch_eq_none_iff s).mpr hph.1

/-- A step of a stopped core repeats HALT, the finish or the stuck step. -/
theorem step_of_stopped {s t : State} (h : s.Inv)
    (hstop : s.phase = .halted ∨ s.phase = .finished ∨ s.phase = .faulted) (hstep : step s = .next t) :
    SameButObservations { s with running := t.running } t := by
  obtain hp | hp | hp := hstop
  · have hhalt : step s = .next s.halt := step_of_decoded (by simp [hp]) (fetch_of_halted h hp) decode_haltWord
    rw [hhalt] at hstep
    cases hstep
    simp [SameButObservations, State.halt, State.observeFree, hp]
  · rw [step_of_fetch_none (by simp [hp]) (fetch_of_finished h hp)] at hstep
    cases hstep
    simp [SameButObservations, State.finish, State.observeFree, hp]
  · rw [step_of_faulted hp] at hstep
    cases hstep
    exact stuck_sameBut s

/-- One change after the other, when each may also have changed the run flag. -/
theorem SameButObservations.trans_running {s t u : State} (h : SameButObservations { s with running := t.running } t)
    (h' : SameButObservations { t with running := u.running } u) :
    SameButObservations { s with running := u.running } u := by
  unfold SameButObservations at *
  rw [h', h]

/-- Settles O46, by induction on the number of steps: the invariant is kept, and with it the phase. -/
theorem stoppedCoreStaysAsItIs : Obligations.StoppedCoreStaysAsItIs := by
  unfold Obligations.StoppedCoreStaysAsItIs
  intro k
  induction k with
  | zero =>
    intro s t _ _ h
    cases h
    rfl
  | succ k ih =>
    intro s t hinv hstop h
    obtain ⟨u, hu, hrun⟩ := step_of_run h
    have hsame := step_of_stopped hinv hstop hu
    have hphase : u.phase = s.phase := by rw [hsame]
    exact hsame.trans_running (ih u t (everyStepKeepsTheInvariant s u hinv hu) (hphase ▸ hstop) hrun)

/-! ## The run loop (R29, R140) -/

/-- No step ends in a fault or a refusal of the host's outcomes (R103, R240). -/
theorem exists_step_eq_next (s : State) : ∃ t, step s = .next t := by
  by_cases hp : s.phase = .faulted
  · exact ⟨_, step_of_faulted hp⟩
  cases hf : s.fetch with
  | none => exact ⟨_, step_of_fetch_none hp hf⟩
  | some w =>
    cases hd : decode w with
    | error e => exact ⟨_, step_of_unrecognised hp hf hd⟩
    | ok i =>
      obtain ⟨t, ht, -⟩ := exec_effect i s
      exact ⟨t, (step_of_decoded hp hf hd).trans ht⟩

theorem stopsRun_iff (p : Phase) : p.stopsRun = true ↔ p = .halted ∨ p = .finished ∨ p = .faulted := by
  cases p <;> decide

theorem stopsRun_eq_false_iff (p : Phase) : p.stopsRun = false ↔ p = .ready ∨ p = .executing := by
  cases p <;> decide

/-- An instruction keeps the run flag, or it halts or faults. -/
theorem Effect.running_cases {i : Instr} {s t : State} (h : Effect i s t) :
    t.running = s.running ∨ t.phase.stopsRun = true := by
  cases h with
  | wrote => exact .inl (by simp)
  | stored => exact .inl rfl
  | branched => exact .inl rfl
  | skipped => exact .inl rfl
  | rejected => exact .inl rfl
  | faulted => exact .inr rfl
  | halted => exact .inr rfl

/-- A step that does not end in a stopping phase keeps the run flag. -/
theorem step_running {s t : State} (h : step s = .next t) (hgo : t.phase.stopsRun = false) :
    t.running = s.running := by
  obtain ⟨-, rfl⟩ | ⟨-, -, rfl⟩ | ⟨-, _, _, -, -, rfl⟩ | ⟨-, w, i, -, -, he⟩ := step_cases h
  · rfl
  · rfl
  · rfl
  · exact (effect_of_exec he).running_cases.resolve_right (by simp [hgo])

theorem settleRun_of_stops {s : State} (h : s.phase.stopsRun = true) : s.settleRun = s.stop := if_pos h

theorem settleRun_of_goes_on {s : State} (h : s.phase.stopsRun = false) : s.settleRun = s := by
  simp [State.settleRun, h]

/-- The end of a round changes the run flag only. -/
theorem settleRun_eq (s : State) : s.settleRun = { s with running := s.settleRun.running } := by
  cases h : s.phase.stopsRun with
  | true => rw [settleRun_of_stops h]; rfl
  | false => rw [settleRun_of_goes_on h]

/-- A round of an active loop is a step and the loop's end. -/
theorem runTick_of_step {s t : State} (hr : s.running = true) (h : step s = .next t) :
    runTick s = .next t.settleRun := by
  simp [runTick, hr, h]

/-- After a round of an active loop the loop is active exactly if the step did not end in a stopping phase. -/
theorem settleRun_running_iff {s t : State} (hr : s.running = true) (h : step s = .next t) :
    t.settleRun.running = true ↔ t.phase.stopsRun = false := by
  cases hph : t.phase.stopsRun with
  | true => simp [settleRun_of_stops hph]
  | false => simp [settleRun_of_goes_on hph, step_running h hph, hr]

theorem runLoop_of_step {n : Nat} {s t : State} (hr : s.running = true) (h : step s = .next t) :
    runLoop (n + 1) s = runLoop n t.settleRun := by
  simp [runLoop, hr, runTick_of_step hr h]

/-- A loop that is not active does nothing. -/
theorem runLoop_of_not_running {s : State} (n : Nat) (hr : s.running = false) : runLoop n s = .next s := by
  cases n with
  | zero => rfl
  | succ n => simp [runLoop, hr]

/-- Settles O50, by induction on the rounds: a round that does not stop the loop is a step and nothing else. -/
theorem runLoopIsASequenceOfSteps : Obligations.RunLoopIsASequenceOfSteps := by
  unfold Obligations.RunLoopIsASequenceOfSteps
  intro fuel
  induction fuel with
  | zero =>
    intro s u hr h
    cases h
    exact ⟨0, s, le_rfl, rfl, rfl, .inl ⟨hr, rfl⟩⟩
  | succ n ih =>
    intro s u hr h
    obtain ⟨t, ht⟩ := exists_step_eq_next s
    rw [runLoop_of_step hr ht] at h
    cases hph : t.phase.stopsRun with
    | true =>
      rw [settleRun_of_stops hph, runLoop_of_not_running n (stop_running t)] at h
      cases h
      exact ⟨1, t, by omega, run_of_step ht, rfl, .inr ⟨rfl, by omega, (stopsRun_iff t.phase).mp hph⟩⟩
    | false =>
      rw [settleRun_of_goes_on hph] at h
      obtain ⟨k, v, hk, hrun, hu, hend⟩ := ih t u ((step_running ht hph).trans hr) h
      refine ⟨k + 1, v, by omega, (run_of_step ht).trans hrun, hu, ?_⟩
      exact hend.imp (fun ⟨hon, _⟩ => ⟨hon, by omega⟩) (fun ⟨hoff, _, hphase⟩ => ⟨hoff, by omega, hphase⟩)

/-! ## The host's controls (R140, R281) -/

theorem hostRun_of_running {s : State} (hr : s.running = true) : s.hostRun = .next s.stop := if_pos hr

theorem hostRun_of_not_running {s : State} (hr : s.running = false) : s.hostRun = runTick s.startRun := by
  simp [State.hostRun, hr]

theorem stop_settleRun (s : State) : s.settleRun.stop = s.stop := by rw [settleRun_eq]; rfl

/-- Settles O51: `run` is one round of the loop it starts, or the `stop` of an active one. -/
theorem hostToggleStopAndDelay : Obligations.HostToggleStopAndDelay := by
  unfold Obligations.HostToggleStopAndDelay
  refine ⟨fun s hr => hostRun_of_running hr, fun _ => rfl, fun _ _ => rfl, fun s hr => ?_, fun s hr => ?_⟩
  · simp [HostOp.apply, runTick, hr]
  · obtain ⟨t, ht⟩ := exists_step_eq_next s.startRun
    have hround : s.hostRun = .next t.settleRun :=
      (hostRun_of_not_running hr).trans (runTick_of_step (startRun_running s) ht)
    refine ⟨t, t.settleRun, ht, hround, settleRun_eq t, ?_, fun hactive => ?_, ?_⟩
    · rw [settleRun_running_iff (startRun_running s) ht, stopsRun_eq_false_iff]
    · exact (hostRun_of_running hactive).trans (congrArg Host.Outcome.next (stop_settleRun t))
    · exact congrArg Host.Outcome.next (stop_settleRun t)

/-! ## The snapshot of a completed instruction (R141 to R143, R146) -/

theorem commitReg_advance_observed (s : State) (rd : RegIdx) (v : Word) (sig : Signal) :
    ObservedWrite (s.commitReg rd v (some sig)).advance rd sig :=
  ⟨by simp, fun h => by simp [reportedReg, h], by simp⟩

/-- The snapshot of class R, for each instruction that is the class's common part with operation `op`. -/
theorem snapshotR_of_classR {mk : RegIdx → RegIdx → RegIdx → Instr} {op : AluOp} {f : Word → Word → Word}
    (hmk : ∀ rd rs1 rs2 s, exec (mk rd rs1 rs2) s = .next (classR op rd rs1 rs2 s))
    (hf : ∀ a b, alu op a b = f a b) : SnapshotR mk op f := by
  intro rd rs1 rs2 s
  rw [← hf]
  exact ⟨_, hmk rd rs1 rs2 s, commitReg_advance_observed ..⟩

/-- The snapshot of class I, for each instruction that is the class's common part with operation `op`. -/
theorem snapshotI_of_classI {n : Nat} {ext : BitVec n → Word} {mk : RegIdx → RegIdx → BitVec n → Instr} {op : AluOp}
    {f : Word → Word → Word} (hmk : ∀ rd rs1 imm s, exec (mk rd rs1 imm) s = .next (classI op rd rs1 (ext imm) s))
    (hf : ∀ a imm, alu op a (ext imm) = f a (ext imm)) : SnapshotI ext mk op f := by
  intro rd rs1 imm s
  rw [← hf]
  exact ⟨_, hmk rd rs1 imm s, commitReg_advance_observed ..⟩

/-- The snapshot of class B, for each branch that is the class's common part with comparison `c`. -/
theorem snapshotB_of_classB {mk : RegIdx → RegIdx → BitVec 13 → Instr} {c : Comparator} {cond : Word → Word → Prop}
    (hmk : ∀ rs1 rs2 imm s, exec (mk rs1 rs2 imm) s = .next (classB c rs1 rs2 imm s))
    (hcond : ∀ a b, c.holds a b = true ↔ cond a b) : SnapshotB mk c cond := by
  intro rs1 rs2 imm s
  refine ⟨fun htaken hal => ⟨_, hmk rs1 rs2 imm s, ?_⟩, fun hnot => ⟨_, hmk rs1 rs2 imm s, ?_⟩⟩
  · rw [classB_taken_aligned ((hcond _ _).mpr htaken) ((alignedTarget_iff _).mpr hal)]
    exact ⟨rfl, rfl, rfl⟩
  · rw [classB_not_taken imm (Bool.eq_false_iff.mpr fun h => hnot ((hcond _ _).mp h))]
    exact ⟨rfl, rfl, rfl⟩

theorem alu_sll_eq (a b : Word) : alu .sll a b = a <<< (b.toNat % 32) := by rw [alu, shiftAmount_eq_mod]

theorem alu_srl_eq (a b : Word) : alu .srl a b = a >>> (b.toNat % 32) := by rw [alu, shiftAmount_eq_mod]

theorem alu_sra_eq (a b : Word) : alu .sra a b = a.sshiftRight (b.toNat % 32) := by rw [alu, shiftAmount_eq_mod]

/-- A zero-extended 5-bit amount is below 32. -/
theorem toNat_setWidth_mod (sh : BitVec 5) : (sh.setWidth 32).toNat % 32 = (sh.setWidth 32).toNat := by
  have := sh.isLt
  simp
  omega

/-- Settles O47: the common part of each class, with the operation or the comparison of the instruction. -/
theorem snapshotOfCompletedInstruction : Obligations.SnapshotOfCompletedInstruction := by
  unfold Obligations.SnapshotOfCompletedInstruction
  refine ⟨snapshotR_of_classR (fun _ _ _ _ => rfl) fun _ _ => rfl,
    snapshotR_of_classR (fun _ _ _ _ => rfl) fun _ _ => rfl, snapshotR_of_classR (fun _ _ _ _ => rfl) fun _ _ => rfl,
    snapshotR_of_classR (fun _ _ _ _ => rfl) fun _ _ => rfl, snapshotR_of_classR (fun _ _ _ _ => rfl) fun _ _ => rfl,
    snapshotR_of_classR (fun _ _ _ _ => rfl) alu_sll_eq, snapshotR_of_classR (fun _ _ _ _ => rfl) alu_srl_eq,
    snapshotR_of_classR (fun _ _ _ _ => rfl) alu_sra_eq, snapshotR_of_classR (fun _ _ _ _ => rfl) alu_slt_eq,
    snapshotR_of_classR (fun _ _ _ _ => rfl) alu_sltu_eq, snapshotI_of_classI (fun _ _ _ _ => rfl) fun _ _ => rfl,
    snapshotI_of_classI (fun _ _ _ _ => rfl) fun _ _ => rfl, snapshotI_of_classI (fun _ _ _ _ => rfl) fun _ _ => rfl,
    snapshotI_of_classI (fun _ _ _ _ => rfl) fun _ _ => rfl,
    snapshotI_of_classI (fun _ _ _ _ => rfl) fun _ _ => alu_slt_eq _ _,
    snapshotI_of_classI (fun _ _ _ _ => rfl) fun _ _ => alu_sltu_eq _ _,
    snapshotI_of_classI (fun _ _ _ _ => rfl) fun _ sh => by rw [alu_sll_eq, toNat_setWidth_mod],
    snapshotI_of_classI (fun _ _ _ _ => rfl) fun _ sh => by rw [alu_srl_eq, toNat_setWidth_mod],
    snapshotI_of_classI (fun _ _ _ _ => rfl) fun _ sh => by rw [alu_sra_eq, toNat_setWidth_mod],
    fun rd rs1 imm s hin => ?_, fun rs2 rs1 imm s hin => ?_,
    snapshotB_of_classB (fun _ _ _ _ => rfl) holds_eq_iff, snapshotB_of_classB (fun _ _ _ _ => rfl) holds_ne_iff,
    snapshotB_of_classB (fun _ _ _ _ => rfl) holds_lt_iff, snapshotB_of_classB (fun _ _ _ _ => rfl) holds_ge_iff,
    snapshotB_of_classB (fun _ _ _ _ => rfl) holds_ltu_iff, snapshotB_of_classB (fun _ _ _ _ => rfl) holds_geu_iff⟩
  · exact ⟨_, execLw_of_admits rd ((admits_iff _ _).mpr hin), commitReg_advance_observed ..⟩
  · exact ⟨_, execSw_of_admits rs2 ((admits_iff _ _).mpr hin), rfl, rfl, rfl⟩

end Sys2Proof.Machine
end

section
/-!
The class R family (41_r_type_alu.md): the words of a row (R96), the common part of the class (R162), the ALU as exact
arithmetic (R160) and the shift amount (R161).
-/

namespace Sys2Proof.Machine

/-! ## The rows and the common part of class R (R96, R162) -/

/-- A row that fixes funct7, funct3 and the major opcode, for the instruction whose word is the R format with them. -/
theorem rowDecodes_of_encodeR {mk : RegIdx → RegIdx → BitVec 5 → Instr} {pattern : Word}
    (hwf : ∀ rd rs1 r2, (mk rd rs1 r2).wellFormed = true)
    (henc : ∀ rd rs1 r2, encode (mk rd rs1 r2) =
      encodeR (funct7Of pattern) r2 rs1 (funct3Of pattern) rd (opcodeOf pattern)) :
    RowDecodes 0xFE00707F#32 pattern
      (fun w => mk (w.extractLsb' 7 5) (w.extractLsb' 15 5) (w.extractLsb' 20 5)) := by
  intro w h
  obtain ⟨h7, h3, hop⟩ := fields_of_maskR h
  have hw : encode (mk (rdOf w) (rs1Of w) (rs2Of w)) = w := by rw [henc, ← h7, ← h3, ← hop, encodeR_fields]
  calc decode w = decode (encode (mk (rdOf w) (rs1Of w) (rs2Of w))) := by rw [hw]
    _ = .ok (mk (rdOf w) (rs1Of w) (rs2Of w)) := decodeInvertsEncode _ (hwf ..)

/-- An instruction that is the common part of class R writes the ALU's result to `rd` and nothing else. -/
theorem completes_of_classR {i : Instr} {s : State} {op : AluOp} {rd rs1 rs2 : RegIdx} {v : Word}
    (hi : exec i s = .next (classR op rd rs1 rs2 s)) (hv : alu op (s.reg rs1) (s.reg rs2) = v) :
    Completes i s (fun t => WroteReg s t rd v (s.pc + 4#32)) :=
  ⟨_, hi, hv ▸ classR_wroteReg op rd rs1 rs2 s⟩

/-- Settles O1: the rows of the class, and its common part with the operation of each instruction. -/
theorem registerAddSubLogic : Obligations.RegisterAddSubLogic := by
  unfold Obligations.RegisterAddSubLogic
  refine ⟨?_, ?_, ?_, ?_, ?_, fun rd rs1 rs2 s =>
    ⟨completes_of_classR rfl rfl, completes_of_classR rfl rfl, completes_of_classR rfl rfl,
      completes_of_classR rfl rfl, completes_of_classR rfl rfl⟩⟩
  all_goals exact rowDecodes_of_encodeR (fun _ _ _ => rfl) fun _ _ _ => rfl

/-- Settles O2: the rows of the class, and the ALU's shifts by the second source modulo 32. -/
theorem registerShifts : Obligations.RegisterShifts := by
  unfold Obligations.RegisterShifts
  refine ⟨?_, ?_, ?_, fun rd rs1 rs2 s =>
    ⟨completes_of_classR rfl (alu_sll_eq _ _), completes_of_classR rfl (alu_srl_eq _ _),
      completes_of_classR rfl (alu_sra_eq _ _)⟩⟩
  all_goals exact rowDecodes_of_encodeR (fun _ _ _ => rfl) fun _ _ _ => rfl

/-- Settles O3: the rows of the class, and the ALU's comparisons as truth words. -/
theorem registerCompares : Obligations.RegisterCompares := by
  unfold Obligations.RegisterCompares
  refine ⟨?_, ?_, fun rd rs1 rs2 s =>
    ⟨completes_of_classR rfl (alu_slt_eq _ _), completes_of_classR rfl (alu_sltu_eq _ _)⟩⟩
  all_goals exact rowDecodes_of_encodeR (fun _ _ _ => rfl) fun _ _ _ => rfl

/-! ## The ALU as exact arithmetic (R160) -/

theorem alu_add_eq_ofInt (a b : Word) : alu .add a b = BitVec.ofInt 32 (a.toInt + b.toInt) := by
  rw [alu, BitVec.ofInt_add, BitVec.ofInt_toInt, BitVec.ofInt_toInt]

theorem alu_sub_eq_ofInt (a b : Word) : alu .sub a b = BitVec.ofInt 32 (a.toInt - b.toInt) := by
  apply BitVec.eq_of_toInt_eq
  rw [alu, BitVec.toInt_sub, BitVec.toInt_ofInt]

theorem toNat_alu_sll (a b : Word) : (alu .sll a b).toNat = a.toNat * 2 ^ (b.toNat % 32) % 2 ^ 32 := by
  rw [alu_sll_eq, BitVec.toNat_shiftLeft, Nat.shiftLeft_eq]

theorem toNat_alu_srl (a b : Word) : (alu .srl a b).toNat = a.toNat / 2 ^ (b.toNat % 32) := by
  rw [alu_srl_eq, BitVec.toNat_ushiftRight, Nat.shiftRight_eq_div_pow]

theorem toInt_alu_sra (a b : Word) : (alu .sra a b).toInt = a.toInt / (2 ^ (b.toNat % 32) : Int) := by
  rw [alu_sra_eq, BitVec.toInt_sshiftRight, Int.shiftRight_eq_div_pow]
  norm_cast

/-- Settles O14: each operation of the table by the library's law for the word operation it is. -/
theorem aluIsExactArithmeticNarrowed : Obligations.AluIsExactArithmeticNarrowed := by
  unfold Obligations.AluIsExactArithmeticNarrowed
  intro a b
  have hne : (1#32 : Word) ≠ 0#32 := by decide
  refine ⟨alu_add_eq_ofInt a b, alu_sub_eq_ofInt a b,
    fun i _ => ⟨BitVec.getLsbD_and, BitVec.getLsbD_or, BitVec.getLsbD_xor⟩,
    toNat_alu_sll a b, toNat_alu_srl a b, toInt_alu_sra a b, ?_, ?_, ?_, ?_⟩
  · rw [alu_slt_eq, hne.ite_eq_left_iff]
  · rw [alu_slt_eq, hne.ite_eq_right_iff]
  · rw [alu_sltu_eq, hne.ite_eq_left_iff]
  · rw [alu_sltu_eq, hne.ite_eq_right_iff]

/-! ## The shift amount (R161) -/

section Shift

variable {op : AluOp} {a b b' : Word} (h : op = .sll ∨ op = .srl ∨ op = .sra)

include h

theorem alu_shift_congr (hb : shiftAmount b = shiftAmount b') : alu op a b = alu op a b' := by
  obtain rfl | rfl | rfl := h
  all_goals rw [alu, alu, hb]

theorem alu_shift_of_amount_zero (hb : shiftAmount b = 0) : alu op a b = a := by
  obtain rfl | rfl | rfl := h
  · rw [alu, hb, BitVec.shiftLeft_zero]
  · rw [alu, hb, BitVec.ushiftRight_zero]
  · rw [alu, hb, BitVec.sshiftRight_zero]

end Shift

/-- Settles O15: the shifts read their second operand through `shiftAmount` only, which is its low five bits. -/
theorem shiftAmountIsLowFiveBits : Obligations.ShiftAmountIsLowFiveBits := by
  unfold Obligations.ShiftAmountIsLowFiveBits
  intro op hop a b b'
  exact ⟨fun h => alu_shift_congr hop (congrArg BitVec.toNat h),
    fun h => alu_shift_of_amount_zero hop (congrArg BitVec.toNat h), alu_shift_of_amount_zero hop rfl,
    alu_shift_congr hop rfl, alu_shift_congr hop rfl⟩

end Sys2Proof.Machine
end

section
/-!
The immediate ALU family (42_i_type_alu.md): the words of a row (R97), the common part of the class (R180), and the ALU
on an extended immediate (R181 to R189).
-/

namespace Sys2Proof.Machine

/-! ## The rows and the common part of class I (R97, R180) -/

/-- A row that fixes funct3 and the major opcode, for the instruction whose word is the I format with them. -/
theorem rowDecodes_of_encodeI {mk : RegIdx → RegIdx → BitVec 12 → Instr} {pattern : Word}
    (hwf : ∀ rd rs1 imm, (mk rd rs1 imm).wellFormed = true)
    (henc : ∀ rd rs1 imm, encode (mk rd rs1 imm) = encodeI imm rs1 (funct3Of pattern) rd (opcodeOf pattern)) :
    RowDecodes 0x0000707F#32 pattern
      (fun w => mk (w.extractLsb' 7 5) (w.extractLsb' 15 5) (w.extractLsb' 20 12)) := by
  intro w h
  obtain ⟨h3, hop⟩ := fields_of_maskI h
  have hw : encode (mk (rdOf w) (rs1Of w) (immIOf w)) = w := by rw [henc, ← h3, ← hop, encodeI_fields]
  calc decode w = decode (encode (mk (rdOf w) (rs1Of w) (immIOf w))) := by rw [hw]
    _ = .ok (mk (rdOf w) (rs1Of w) (immIOf w)) := decodeInvertsEncode _ (hwf ..)

/-- An instruction that is the common part of class I writes the ALU's result to `rd` and nothing else. -/
theorem completes_of_classI {i : Instr} {s : State} {op : AluOp} {rd rs1 : RegIdx} {b v : Word}
    (hi : exec i s = .next (classI op rd rs1 b s)) (hv : alu op (s.reg rs1) b = v) :
    Completes i s (fun t => WroteReg s t rd v (s.pc + 4#32)) :=
  ⟨_, hi, hv ▸ classI_wroteReg op rd rs1 b s⟩

/-! ## The ALU on an extended immediate (R185, R187 to R189) -/

/-- The sign-extended immediate is the signed number of its 12-bit field. -/
theorem toInt_immWord (imm : BitVec 12) : (immWord imm).toInt = imm.toInt :=
  BitVec.toInt_signExtend_of_le (by decide)

theorem alu_slt_immWord (a : Word) (imm : BitVec 12) :
    alu .slt a (immWord imm) = if a.toInt < imm.toInt then 1#32 else 0#32 := by
  rw [alu_slt_eq, toInt_immWord]

theorem alu_sll_shamtWord (a : Word) (sh : BitVec 5) : alu .sll a (shamtWord sh) = a <<< sh.toNat := by
  rw [alu, shiftAmount_shamtWord]

theorem alu_srl_shamtWord (a : Word) (sh : BitVec 5) : alu .srl a (shamtWord sh) = a >>> sh.toNat := by
  rw [alu, shiftAmount_shamtWord]

theorem alu_sra_shamtWord (a : Word) (sh : BitVec 5) : alu .sra a (shamtWord sh) = a.sshiftRight sh.toNat := by
  rw [alu, shiftAmount_shamtWord]

/-- Settles O4: the rows of the class, and its common part with the operation of each instruction. -/
theorem immediateAddLogic : Obligations.ImmediateAddLogic := by
  unfold Obligations.ImmediateAddLogic
  refine ⟨?_, ?_, ?_, ?_, fun rd rs1 imm s =>
    ⟨completes_of_classI rfl rfl, completes_of_classI rfl rfl, completes_of_classI rfl rfl,
      completes_of_classI rfl rfl⟩⟩
  all_goals exact rowDecodes_of_encodeI (fun _ _ _ => rfl) fun _ _ _ => rfl

/-- Settles O5: the rows of the class, and the ALU's comparisons with the sign-extended immediate. -/
theorem immediateCompares : Obligations.ImmediateCompares := by
  unfold Obligations.ImmediateCompares
  refine ⟨?_, ?_, fun rd rs1 imm s =>
    ⟨completes_of_classI rfl (alu_slt_immWord _ _), completes_of_classI rfl (alu_sltu_eq _ _)⟩⟩
  all_goals exact rowDecodes_of_encodeI (fun _ _ _ => rfl) fun _ _ _ => rfl

/-- Settles O6: the rows have the R format, with the amount in the place of the second source; the ALU shifts by the
amount. -/
theorem immediateShifts : Obligations.ImmediateShifts := by
  unfold Obligations.ImmediateShifts
  refine ⟨?_, ?_, ?_, fun rd rs1 shamt s =>
    ⟨completes_of_classI rfl (alu_sll_shamtWord _ _), completes_of_classI rfl (alu_srl_shamtWord _ _),
      completes_of_classI rfl (alu_sra_shamtWord _ _)⟩⟩
  all_goals exact rowDecodes_of_encodeR (fun _ _ _ => rfl) fun _ _ _ => rfl

end Sys2Proof.Machine
end

section
/-!
The load and store family (43_load_store.md): the words of the two rows (R98), and each access by the verdict on its
effective address (R200 to R202).
-/

namespace Sys2Proof.Machine

/-! ## The rows of lw and sw (R98) -/

theorem rowDecodes_lw : RowDecodes 0x0000707F#32 0x00002003#32
    (fun w => .lw (w.extractLsb' 7 5) (w.extractLsb' 20 12) (w.extractLsb' 15 5)) := by
  intro w h
  obtain ⟨h3, hop⟩ := fields_of_maskI h
  exact (decode_of_opcodeLoad hop).trans (if_pos h3)

theorem rowDecodes_sw : RowDecodes 0x0000707F#32 0x00002023#32
    (fun w => .sw (w.extractLsb' 20 5) (immSOf w) (w.extractLsb' 15 5)) := by
  intro w h
  obtain ⟨h3, hop⟩ := fields_of_maskI h
  exact (decode_of_opcodeStore hop).trans (if_pos h3)

/-! ## An admitted and a rejected access (R200 to R202) -/

section Access

variable {s : State} {rs1 : RegIdx} {imm : BitVec 12}

/-- An admitted `lw` writes the word it addresses to `rd`, x0 included, and nothing else. -/
theorem lw_wroteReg_of_admits (rd : RegIdx) (h : s.admits (s.effectiveAddress rs1 imm) = true) :
    Completes (.lw rd imm rs1) s fun t =>
      WroteReg s t rd (s.mem.readWord (wordIndex (s.effectiveAddress rs1 imm))) (s.pc + 4#32) :=
  ⟨_, execLw_of_admits rd h, commitReg_advance_wroteReg ..⟩

theorem lw_raised_of_rejects (rd : RegIdx) (h : s.admits (s.effectiveAddress rs1 imm) = false) :
    Completes (.lw rd imm rs1) s fun t => Raised s t .memoryOutOfBounds :=
  ⟨_, execLw_of_rejects rd h, raise_raised s _⟩

theorem sw_completes_of_admits (rs2 : RegIdx) (hwf : s.mem.wf = true)
    (h : s.admits (s.effectiveAddress rs1 imm) = true) :
    Completes (.sw rs2 imm rs1) s fun t =>
      StoredWord s t (wordIndex (s.effectiveAddress rs1 imm)) (s.reg rs2) (s.pc + 4#32) :=
  ⟨_, execSw_of_admits rs2 h, storedState_stored _ _ _ hwf⟩

theorem sw_raised_of_rejects (rs2 : RegIdx) (h : s.admits (s.effectiveAddress rs1 imm) = false) :
    Completes (.sw rs2 imm rs1) s fun t => Raised s t .memoryOutOfBounds :=
  ⟨_, execSw_of_rejects rs2 h, raise_raised s _⟩

end Access

/-- Settles O7: the row of `lw`, and the two verdicts on its effective address. -/
theorem loadWord : Obligations.LoadWord := by
  unfold Obligations.LoadWord
  refine ⟨rowDecodes_lw, fun rd rs1 imm s => ⟨fun hin => ?_, fun hout => ?_⟩⟩
  · exact lw_wroteReg_of_admits rd ((admits_iff _ _).mpr hin)
  · exact lw_raised_of_rejects rd ((rejects_iff _ _).mpr hout)

/-- Settles O8: the row of `sw`, and the two verdicts on its effective address. -/
theorem storeWord : Obligations.StoreWord := by
  unfold Obligations.StoreWord
  refine ⟨rowDecodes_sw, fun rs2 rs1 imm s hwf => ⟨fun hin => ?_, fun hout => ?_⟩⟩
  · exact sw_completes_of_admits rs2 hwf ((admits_iff _ _).mpr hin)
  · exact sw_raised_of_rejects rs2 ((rejects_iff _ _).mpr hout)

end Sys2Proof.Machine
end

section
/-!
The branch family (44_branch.md): the words of a row (R99) and of the HALT sentinel (R102), the common part of the class
(R210, R211), and the halted core (R134, R218).
-/

namespace Sys2Proof.Machine

/-! ## The rows of class B (R99, R102) -/

/-- Of the row of `beq` only HALT_WORD is no `beq`. -/
theorem decode_of_beq_row {w : Word} (h : w &&& 0x0000707F#32 = 0x00000063#32) (hw : w ≠ Config.haltWord) :
    decode w = .ok (.beq (rs1Of w) (rs2Of w) (immBOf w)) := by
  obtain ⟨h3, hop⟩ := fields_of_maskI h
  exact (decode_of_opcodeB hw hop).trans (if_pos h3)

/-- A row that fixes funct3 and the major opcode, for the branch whose word is the B format with them and for which an
even displacement is all that makes it well formed: every branch but `beq`. -/
theorem rowDecodes_of_encodeB {mk : RegIdx → RegIdx → BitVec 13 → Instr} {pattern : Word}
    (hwf : ∀ rs1 rs2 imm, (mk rs1 rs2 imm).wellFormed = evenB imm)
    (henc : ∀ rs1 rs2 imm, encode (mk rs1 rs2 imm) = encodeB imm rs2 rs1 (funct3Of pattern) (opcodeOf pattern)) :
    RowDecodes 0x0000707F#32 pattern (fun w => mk (w.extractLsb' 15 5) (w.extractLsb' 20 5) (immBOf w)) := by
  intro w h
  obtain ⟨h3, hop⟩ := fields_of_maskI h
  have hw : encode (mk (rs1Of w) (rs2Of w) (immBOf w)) = w := by rw [henc, ← h3, ← hop, encodeB_fields]
  calc decode w = decode (encode (mk (rs1Of w) (rs2Of w) (immBOf w))) := by rw [hw]
    _ = .ok (mk (rs1Of w) (rs2Of w) (immBOf w)) := decodeInvertsEncode _ ((hwf ..).trans (evenB_immBOf w))

/-! ## The common part of class B (R210, R211) -/

/-- The rule of a branch, for each instruction that is the class's common part with comparison `c`. -/
theorem branchRule_of_classB {mk : RegIdx → RegIdx → BitVec 13 → Instr} {c : Comparator} {cond : Word → Word → Prop}
    (hmk : ∀ rs1 rs2 imm s, exec (mk rs1 rs2 imm) s = .next (classB c rs1 rs2 imm s))
    (hcond : ∀ a b, c.holds a b = true ↔ cond a b) : BranchRule mk cond := by
  intro rs1 rs2 imm s
  have htarget : s.pc + imm.signExtend 32 = s.branchTarget imm := rfl
  rw [← hcond, htarget, ← alignedTarget_iff, Bool.not_eq_true, ne_eq, ← alignedTarget_iff, Bool.not_eq_true]
  refine ⟨fun htaken hal => ⟨_, hmk rs1 rs2 imm s, ?_⟩, fun htaken hmis => ⟨_, hmk rs1 rs2 imm s, ?_⟩,
    fun hnot => ⟨_, hmk rs1 rs2 imm s, ?_⟩⟩
  · rw [classB_taken_aligned htaken hal]
    exact observe_goTo_wroteNothing ..
  · rw [classB_taken_misaligned htaken hmis]
    exact faultMisaligned_faultedAt ..
  · rw [classB_not_taken imm hnot]
    exact observe_advance_wroteNothing ..

/-- Settles O9: the two rows, and the common part of the class with the comparisons `=` and `≠`. -/
theorem equalityBranches : Obligations.EqualityBranches := by
  unfold Obligations.EqualityBranches
  exact ⟨fun _ => decode_of_beq_row, rowDecodes_of_encodeB (fun _ _ _ => rfl) fun _ _ _ => rfl,
    branchRule_of_classB (fun _ _ _ _ => rfl) holds_eq_iff, branchRule_of_classB (fun _ _ _ _ => rfl) holds_ne_iff⟩

/-- Settles O10: the four rows, and the common part of the class with the signed and the unsigned comparisons. -/
theorem orderedBranches : Obligations.OrderedBranches := by
  unfold Obligations.OrderedBranches
  refine ⟨?_, ?_, ?_, ?_,
    branchRule_of_classB (fun _ _ _ _ => rfl) holds_lt_iff, branchRule_of_classB (fun _ _ _ _ => rfl) holds_ge_iff,
    branchRule_of_classB (fun _ _ _ _ => rfl) holds_ltu_iff, branchRule_of_classB (fun _ _ _ _ => rfl) holds_geu_iff⟩
  all_goals exact rowDecodes_of_encodeB (fun _ _ _ => rfl) fun _ _ _ => rfl

/-! ## HALT (R102, R134, R218) -/

theorem decode_eq_halt_iff (w : Word) : decode w = .ok .halt ↔ w = Config.haltWord :=
  ⟨eq_haltWord_of_decode_halt, fun h => h ▸ decode_haltWord⟩

/-- A core that is not faulted runs HALT where it finds HALT_WORD. -/
theorem step_at_haltWord {s : State} (hp : s.phase ≠ .faulted) (hf : s.fetch = some Config.haltWord) :
    step s = .next s.halt := step_of_decoded hp hf decode_haltWord

/-- Settles O11: HALT leaves the pc at HALT_WORD, so a further step runs HALT again, now from a halted core. -/
theorem haltSentinel : Obligations.HaltSentinel := by
  unfold Obligations.HaltSentinel
  refine ⟨decode_eq_halt_iff, fun s => ⟨s.halt, rfl, halt_reg s, fun _ => rfl, rfl, rfl, rfl, rfl, rfl, rfl, rfl, rfl⟩,
    fun s hp hf => ?_⟩
  have hagain : step s.halt = .next s.halt.halt := step_at_haltWord (by simp) ((halt_fetch s).trans hf)
  exact ⟨s.halt, step_at_haltWord hp hf, rfl, s.halt.halt, hagain, halt_sameBut s.halt⟩

end Sys2Proof.Machine
end

section
/-!
The upper-immediate and jump family (45_upper_and_jump.md): the words of the four rows (R100), the skip of UJ_EXEC =
skip (R230), and the RV32I semantics of UJ_EXEC = rv32i with the alignment of a jump's target (R231 to R235).
-/

namespace Sys2Proof.Machine

/-! ## The rows of lui, auipc and jal (R100) -/

theorem rowDecodes_lui : RowDecodes 0x0000007F#32 0x00000037#32
    (fun w => .lui (w.extractLsb' 7 5) (w.extractLsb' 12 20)) :=
  fun _ h => decode_of_opcodeLui (opcodeOf_of_maskU h)

theorem rowDecodes_auipc : RowDecodes 0x0000007F#32 0x00000017#32
    (fun w => .auipc (w.extractLsb' 7 5) (w.extractLsb' 12 20)) :=
  fun _ h => decode_of_opcodeAuipc (opcodeOf_of_maskU h)

theorem rowDecodes_jal : RowDecodes 0x0000007F#32 0x0000006F#32 (fun w => .jal (w.extractLsb' 7 5) (immJOf w)) :=
  fun _ h => decode_of_opcodeJal (opcodeOf_of_maskU h)

/-! ## lui and auipc (R230 to R232) -/

/-- Settles O12: the two rows, the recovered error of `skip`, and the register write of `rv32i`. -/
theorem upperImmediates : Obligations.UpperImmediates := by
  unfold Obligations.UpperImmediates
  refine ⟨rowDecodes_lui, rowDecodes_auipc, fun rd imm20 s => ⟨fun hskip => ⟨?_, ?_⟩, fun hrv => ⟨?_, ?_⟩⟩⟩
  · exact ⟨_, execLui_skip hskip rd imm20, raise_raised s _⟩
  · exact ⟨_, execAuipc_skip hskip rd imm20, raise_raised s _⟩
  · exact ⟨_, execLui_rv32i hrv rd imm20, commitReg_goTo_wroteReg ..⟩
  · exact ⟨_, execAuipc_rv32i hrv rd imm20, commitReg_goTo_wroteReg ..⟩

/-! ## The target of a jump (R233 to R235) -/

/-- A jump to an aligned target writes the link and goes there. -/
theorem ujJump_wroteReg_of_aligned {target : Word} (h : alignedTarget target = true) (rd : RegIdx) (s : State) :
    WroteReg s (ujJump rd target s) rd (s.pc + 4#32) target := by
  rw [ujJump_aligned h]
  exact commitReg_goTo_wroteReg ..

theorem ujJump_faultedAt_of_misaligned {target : Word} (h : alignedTarget target = false) (rd : RegIdx) (s : State) :
    FaultedAt s (ujJump rd target s) target := by
  rw [ujJump_misaligned h]
  exact faultMisaligned_faultedAt s target

theorem misalignedTarget_iff (target : Word) : alignedTarget target = false ↔ target.toNat % 4 ≠ 0 := by
  rw [ne_eq, ← alignedTarget_iff, Bool.not_eq_true]

/-- A target is aligned exactly when its bits 0 and 1 are zero. -/
theorem alignedTarget_iff_low_bits (target : Word) :
    alignedTarget target = true ↔ target.getLsbD 0 = false ∧ target.getLsbD 1 = false := by
  rw [alignedTarget, beq_iff_eq, BitVec.eq_of_getLsbD_eq_iff]
  simp [Nat.le_one_iff_eq_zero_or_eq_one, or_imp, forall_and]

/-- With bit 0 cleared, bit 1 alone decides the alignment: the target of `jalr` (R234, R235). -/
theorem alignedTarget_clear_bit_zero (sum : Word) : alignedTarget (sum &&& 0xFFFFFFFE#32) = !sum.getLsbD 1 := by
  rw [Bool.eq_iff_iff, alignedTarget_iff_low_bits]
  simp

/-! ## jal and jalr (R230, R233 to R235) -/

/-- Settles O13: the two rows, the recovered error of `skip`, and for `rv32i` the jump to either kind of target. -/
theorem jumps : Obligations.Jumps := by
  unfold Obligations.Jumps
  refine ⟨rowDecodes_jal, rowDecodes_of_encodeI (fun _ _ _ => rfl) fun _ _ _ => rfl,
    fun rd imm s => ⟨fun hskip => ?_, fun hrv hal => ?_, fun hrv hmis => ?_⟩,
    fun rd rs1 imm s => ⟨fun hskip => ?_, fun hrv hal => ?_, fun hrv hmis => ?_⟩⟩
  · exact ⟨_, execJal_skip hskip rd imm, raise_raised s _⟩
  · exact ⟨_, execJal_rv32i hrv rd imm, ujJump_wroteReg_of_aligned ((alignedTarget_iff _).mpr hal) rd s⟩
  · exact ⟨_, execJal_rv32i hrv rd imm, ujJump_faultedAt_of_misaligned ((misalignedTarget_iff _).mpr hmis) rd s⟩
  · exact ⟨_, execJalr_skip hskip rd rs1 imm, raise_raised s _⟩
  · have htarget : alignedTarget (s.jalrTarget rs1 imm) = true :=
      (alignedTarget_clear_bit_zero _).trans (congrArg not hal)
    exact ⟨_, execJalr_rv32i hrv rd rs1 imm, ujJump_wroteReg_of_aligned htarget rd s⟩
  · have htarget : alignedTarget (s.jalrTarget rs1 imm) = false :=
      (alignedTarget_clear_bit_zero _).trans (congrArg not hmis)
    exact ⟨_, execJalr_rv32i hrv rd rs1 imm, ujJump_faultedAt_of_misaligned htarget rd s⟩

end Sys2Proof.Machine
end

section
/-!
The exceptions family (60_exceptions.md): no step ends outside the model, since every error is recovered at the
instruction boundary (R240) and the fault is a next state (R250, log 3), and what that recovery does (R241).
-/

namespace Sys2Proof.Machine

/-- Settles O32, by the four branches of a step: stuck, past the end, an unrecognised word, and an instruction. -/
theorem everyStepHasANextState : Obligations.EveryStepHasANextState := by
  unfold Obligations.EveryStepHasANextState
  exact exists_step_eq_next

/-- Settles O33, by the rule of `raise` (R241). -/
theorem raiseSkipsAndLogs : Obligations.RaiseSkipsAndLogs := by
  unfold Obligations.RaiseSkipsAndLogs
  exact raise_raised

end Sys2Proof.Machine
end

section
/-!
The host's reset (70_reset_and_hazards.md R270): from any state the core is at the values of R35, and the program and
the parameters are kept.
-/

namespace Sys2Proof.Machine

/-- The host's reset leaves the registers of `State.reset`, which read 0 (R35). -/
@[simp] theorem hostReset_reg (s : State) (r : RegIdx) : s.hostReset.reg r = 0#32 :=
  (reg_of_x (s := State.reset) (hostReset_x s) r).trans (reg_reset r)

/-- Nothing is listed in the memory after the host's reset, so every data word reads 0. -/
theorem hostReset_readWord (s : State) (i : Nat) : s.hostReset.mem.readWord i = 0#32 := by
  rw [hostReset_mem, readWord_nil]

theorem hostReset_sameProgram (s : State) : SameProgram s s.hostReset :=
  ⟨hostReset_prog s, hostReset_memSize s, hostReset_ujExec s⟩

/-- Settles O48: the registers and the data words read 0, and each other item is a field of the reset (R270). -/
theorem hostResetClearsTheCore : Obligations.HostResetClearsTheCore := by
  unfold Obligations.HostResetClearsTheCore
  intro s
  exact ⟨hostReset_reg s, hostReset_readWord s, hostReset_pc s, hostReset_running s, hostReset_phase s,
    hostReset_signal s, hostReset_diag s, hostReset_sameProgram s⟩

end Sys2Proof.Machine
end
